-- ==== Sys2Proof/Word.lean ====
section
/-! DEFINITION. The word types of the engine: bytes, 16-bit words, register numbers. -/

namespace Sys2Proof

/-- A general register, a timer, a byte of memory (10_state.md R15, R29). -/
abbrev Byte := BitVec 8

/-- PC, I, a return address, an opcode (10_state.md R15; 30_encoding.md R57). -/
abbrev Word := BitVec 16

/-- The number of a general register V0..VF (10_state.md R16). -/
abbrev Reg := Fin 16

/-- VF is `V[15]`, the register that doubles as the flag (10_state.md R17). -/
abbrev VF : Reg := 15

/-- `zext_16(KK)` and `zext_16(V[X])` (00_scope.md R9). -/
abbrev zextByte (b : Byte) : Word := b.setWidth 16

/-- `zext_16(NNN)` (30_encoding.md R63). -/
abbrev zextAddr (a : BitVec 12) : Word := a.setWidth 16

end Sys2Proof
end

