-- ==== Sys2Proof/Syntax.lean ====
section
/-! DEFINITION. The instructions: one constructor per row of spec/opcode_table.json
(30_encoding.md R67). The operand fields carry their ranges in their types (R62, R63):
X and Y are register numbers, KK a byte, NNN a 12-bit address, N a 4-bit row count. -/

namespace Sys2Proof

/-- The 35 rows of the opcode map. A word that matches none of them is no instruction: the step takes
the fallback of 30_encoding.md R68. -/
inductive Instr where
  /-- 0000 NOP (R78) -/
  | nop
  /-- 00E0 CLS (R76) -/
  | cls
  /-- 00EE RET (R79) -/
  | ret
  /-- 1NNN JP nnn (R80) -/
  | jp (nnn : BitVec 12)
  /-- 2NNN CALL nnn (R81) -/
  | call (nnn : BitVec 12)
  /-- 3XKK SE Vx, kk (R82) -/
  | seImm (x : Reg) (kk : Byte)
  /-- 4XKK SNE Vx, kk (R83) -/
  | sneImm (x : Reg) (kk : Byte)
  /-- 5XY0 SE Vx, Vy (R84) -/
  | seReg (x y : Reg)
  /-- 6XKK LD Vx, kk (R88) -/
  | ldImm (x : Reg) (kk : Byte)
  /-- 7XKK ADD Vx, kk (R89) -/
  | addImm (x : Reg) (kk : Byte)
  /-- 8XY0 LD Vx, Vy (R90) -/
  | ldReg (x y : Reg)
  /-- 8XY1 OR Vx, Vy (R91) -/
  | orReg (x y : Reg)
  /-- 8XY2 AND Vx, Vy (R92) -/
  | andReg (x y : Reg)
  /-- 8XY3 XOR Vx, Vy (R93) -/
  | xorReg (x y : Reg)
  /-- 8XY4 ADD Vx, Vy (R94) -/
  | addReg (x y : Reg)
  /-- 8XY5 SUB Vx, Vy (R95) -/
  | sub (x y : Reg)
  /-- 8XY6 SHR Vx, Vy (R96) -/
  | shr (x y : Reg)
  /-- 8XY7 SUBN Vx, Vy (R97) -/
  | subn (x y : Reg)
  /-- 8XYE SHL Vx, Vy (R98) -/
  | shl (x y : Reg)
  /-- 9XY0 SNE Vx, Vy (R85) -/
  | sneReg (x y : Reg)
  /-- ANNN LD I, nnn (R101) -/
  | ldI (nnn : BitVec 12)
  /-- BNNN JP V0, nnn (R86); X = NNN[11:8] is read only under QUIRK_JUMP_VX -/
  | jpV0 (nnn : BitVec 12)
  /-- CXKK RND Vx, kk (R100) -/
  | rnd (x : Reg) (kk : Byte)
  /-- DXYN DRW Vx, Vy, n (R77) -/
  | drw (x y : Reg) (n : BitVec 4)
  /-- EX9E SKP Vx (R107) -/
  | skp (x : Reg)
  /-- EXA1 SKNP Vx (R108) -/
  | sknp (x : Reg)
  /-- FX07 LD Vx, DT (R109) -/
  | ldVxDt (x : Reg)
  /-- FX0A LD Vx, K (R110) -/
  | ldVxK (x : Reg)
  /-- FX15 LD DT, Vx (R111) -/
  | ldDt (x : Reg)
  /-- FX18 LD ST, Vx (R112) -/
  | ldSt (x : Reg)
  /-- FX1E ADD I, Vx (R102) -/
  | addI (x : Reg)
  /-- FX29 LD F, Vx (R103) -/
  | ldF (x : Reg)
  /-- FX33 LD B, Vx (R104) -/
  | ldB (x : Reg)
  /-- FX55 LD [I], Vx (R105) -/
  | ldMemVx (x : Reg)
  /-- FX65 LD Vx, [I] (R106) -/
  | ldVxMem (x : Reg)
  deriving DecidableEq, Repr

end Sys2Proof
end

