-- ==== Sys2Proof/Config.lean ====
section
/-! DEFINITION. The parameters of one machine (00_scope.md R6) and the free values of the model. -/

namespace Sys2Proof

/-- RNG_MODE: the deterministic generator, or a free byte on every CXKK (00_scope.md R6; 43_alu.md R100). -/
inductive RngMode where
  | xorshift32
  | draw
  deriving DecidableEq, Repr

/-- The configuration: fixed at construction and read-only (00_scope.md R6; 10_state.md R31).
Which configurations are valid is `Config.valid`. -/
structure Config where
  /-- MEM_SIZE -/
  memSize : Nat
  /-- PROGRAM_START -/
  programStart : Nat
  /-- DISPLAY_W -/
  displayW : Nat
  /-- DISPLAY_H -/
  displayH : Nat
  /-- FONT_BASE -/
  fontBase : Nat
  /-- FONT -/
  font : List Byte
  /-- QUIRK_LS_INCREMENT: FX55 and FX65 advance I -/
  quirkLsIncrement : Bool
  /-- QUIRK_SHIFT_VY: 8XY6 and 8XYE take their operand from VY -/
  quirkShiftVy : Bool
  /-- QUIRK_JUMP_VX: BNNN adds VX instead of V0 -/
  quirkJumpVx : Bool
  /-- QUIRK_FONT_MASK: FX29 uses VX & 0x0F -/
  quirkFontMask : Bool
  /-- RNG_MODE -/
  rngMode : RngMode
  /-- RNG_SEED: any value (92_eei_decisions.md D14) -/
  rngSeed : BitVec 32
  /-- INSTR_RATE in Hz: informative, no rule depends on it -/
  instrRate : Nat
  /-- TIMER_RATE in Hz: informative, it drives the host's TICK -/
  timerRate : Nat
  deriving DecidableEq, Repr

/-- STACK_DEPTH, fixed at 16 (00_scope.md R6; 10_state.md R21). -/
abbrev Config.stackDepth : Nat := 16

/-- The number of bytes of FONT: 16 glyphs of 5 bytes (10_state.md R30). -/
abbrev Config.fontSize : Nat := 80

/-- The conventional font of 10_state.md R30, glyphs 0 to 7.
PRESUMED (log 9): the spec takes these bytes from general knowledge. Unsafe. -/
def fontLow : List Byte :=
  [0xF0, 0x90, 0x90, 0x90, 0xF0,  0x20, 0x60, 0x20, 0x20, 0x70,
   0xF0, 0x10, 0xF0, 0x80, 0xF0,  0xF0, 0x10, 0xF0, 0x10, 0xF0,
   0x90, 0x90, 0xF0, 0x10, 0x10,  0xF0, 0x80, 0xF0, 0x10, 0xF0,
   0xF0, 0x80, 0xF0, 0x90, 0xF0,  0xF0, 0x10, 0x20, 0x40, 0x40]

/-- Glyphs 8 to F of the font of 10_state.md R30. PRESUMED (log 9). Unsafe. -/
def fontHigh : List Byte :=
  [0xF0, 0x90, 0xF0, 0x90, 0xF0,  0xF0, 0x90, 0xF0, 0x10, 0xF0,
   0xF0, 0x90, 0xF0, 0x90, 0x90,  0xE0, 0x90, 0xE0, 0x90, 0xE0,
   0xF0, 0x80, 0x80, 0x80, 0xF0,  0xE0, 0x90, 0x90, 0x90, 0xE0,
   0xF0, 0x80, 0xF0, 0x80, 0xF0,  0xF0, 0x80, 0xF0, 0x80, 0x80]

/-- The defaults of 00_scope.md R6. The spec gives RNG_SEED no default: the 0 here is a
DESIGN CHOICE (log 4). Unsafe: a run from `State.reset` has that seed. -/
def Config.default : Config where
  memSize := 4096
  programStart := 0x200
  displayW := 64
  displayH := 32
  fontBase := 0x50
  font := fontLow ++ fontHigh
  quirkLsIncrement := false
  quirkShiftVy := false
  quirkJumpVx := false
  quirkFontMask := false
  rngMode := .xorshift32
  rngSeed := 0
  instrRate := 700
  timerRate := 60

/-- FREE VALUE (log 2): TICK of a step for which the host has supplied none, by the number of free
values taken before it. "A model lets every step's TICK, including the first, be 0 or 1"
(92_eei_decisions.md D27). Safe: nothing constrains it. -/
opaque Config.freeTick : Nat → Bool

/-- FREE VALUE (log 3): the byte of a `draw8()` for which the host has supplied none, "any byte; a free
input of the step" (43_alu.md R100). Safe: nothing constrains it. -/
opaque Config.freeByte : Nat → Byte

end Sys2Proof
end

