-- ==== Sys2Proof/WellFormed.lean ====
section
/-! DEFINITION. What is well formed.

An instruction needs no check of its own: every field of `Instr` carries its range in its type, and every
value in range is legal (30_encoding.md R63, R71, R75), so EVERY term of `Instr` is well formed.
What can be ill formed is a configuration (70_reset_and_hazards.md R135): a machine is built from a
valid one only. -/

namespace Sys2Proof

/-- 1 ≤ MEM_SIZE ≤ 65536. -/
def Config.memSizeValid (c : Config) : Bool := decide (1 ≤ c.memSize) && decide (c.memSize ≤ 65536)

/-- PROGRAM_START ≤ MEM_SIZE. -/
def Config.programStartValid (c : Config) : Bool := decide (c.programStart ≤ c.memSize)

/-- FONT_BASE + 80 ≤ MEM_SIZE, so the font lies inside memory. -/
def Config.fontPlaceValid (c : Config) : Bool := decide (c.fontBase + Config.fontSize ≤ c.memSize)

/-- DISPLAY_W ≥ 1 and DISPLAY_H ≥ 1. -/
def Config.displayValid (c : Config) : Bool := decide (1 ≤ c.displayW) && decide (1 ≤ c.displayH)

/-- FONT has exactly 80 bytes. -/
def Config.fontLengthValid (c : Config) : Bool := decide (c.font.length = Config.fontSize)

/-- "A configuration is valid only if all of the following hold" (70_reset_and_hazards.md R135). -/
def Config.valid (c : Config) : Bool :=
  c.memSizeValid && c.programStartValid && c.fontPlaceValid && c.displayValid && c.fontLengthValid

end Sys2Proof
end

