-- ==== Sys2Proof/Decode.lean ====
section
/-! DEFINITION. Words to instructions and back (30_encoding.md), and the assembler spelling (R73).
The decoder is total (R75): it answers an instruction, or names the class of the unknown word (R69). -/

namespace Sys2Proof

/-! ### Fields (30_encoding.md R58, R62) -/

/-- n0 = `w[15:12]`. -/
def fieldOp (w : Word) : Nat := (w.extractLsb' 12 4).toNat

/-- NNN = `w[11:0]`. -/
def fieldNNN (w : Word) : BitVec 12 := w.extractLsb' 0 12

/-- KK = `w[7:0]`. -/
def fieldKK (w : Word) : Byte := w.extractLsb' 0 8

/-- X = `w[11:8]`. -/
def fieldX (w : Word) : Reg := (w.extractLsb' 8 4).toFin

/-- Y = `w[7:4]`. -/
def fieldY (w : Word) : Reg := (w.extractLsb' 4 4).toFin

/-- N = `w[3:0]`. -/
def fieldN (w : Word) : BitVec 4 := w.extractLsb' 0 4

/-- The register field of a BNNN word, X = NNN[11:8] (42_control_flow.md R86). -/
def jumpX (nnn : BitVec 12) : Reg := (nnn.extractLsb' 8 4).toFin

/-! ### Decoding -/

/-- Why bytes are no instruction: too few of them, or an unknown word, by the classes of 30_encoding.md R69. -/
inductive Reject where
  /-- fewer than two bytes -/
  | truncated
  /-- 0NNN with NNN not 0x000, 0x0E0 or 0x0EE -/
  | unknown0
  /-- 5XYn with n ≠ 0 -/
  | unknown5
  /-- 8XYn with n in 8, 9, A, B, C, D, F -/
  | unknown8
  /-- 9XYn with n ≠ 0 -/
  | unknown9
  /-- EXkk with kk not 0x9E or 0xA1 -/
  | unknownE
  /-- FXkk with kk none of the nine defined low bytes -/
  | unknownF
  deriving DecidableEq, Repr

/-- 0x0: the whole word must be 0x0000, 0x00E0 or 0x00EE (R66). -/
def decode0 (w : Word) : Except Reject Instr :=
  match (fieldNNN w).toNat with
  | 0x000 => .ok .nop
  | 0x0E0 => .ok .cls
  | 0x0EE => .ok .ret
  | _ => .error .unknown0

/-- 0x8 selects on n3 (R66). -/
def decode8 (w : Word) : Except Reject Instr :=
  match (fieldN w).toNat with
  | 0x0 => .ok (.ldReg (fieldX w) (fieldY w))
  | 0x1 => .ok (.orReg (fieldX w) (fieldY w))
  | 0x2 => .ok (.andReg (fieldX w) (fieldY w))
  | 0x3 => .ok (.xorReg (fieldX w) (fieldY w))
  | 0x4 => .ok (.addReg (fieldX w) (fieldY w))
  | 0x5 => .ok (.sub (fieldX w) (fieldY w))
  | 0x6 => .ok (.shr (fieldX w) (fieldY w))
  | 0x7 => .ok (.subn (fieldX w) (fieldY w))
  | 0xE => .ok (.shl (fieldX w) (fieldY w))
  | _ => .error .unknown8

/-- 0xE selects on the low byte (R66). -/
def decodeE (w : Word) : Except Reject Instr :=
  match (fieldKK w).toNat with
  | 0x9E => .ok (.skp (fieldX w))
  | 0xA1 => .ok (.sknp (fieldX w))
  | _ => .error .unknownE

/-- 0xF selects on the low byte (R66). -/
def decodeF (w : Word) : Except Reject Instr :=
  match (fieldKK w).toNat with
  | 0x07 => .ok (.ldVxDt (fieldX w))
  | 0x0A => .ok (.ldVxK (fieldX w))
  | 0x15 => .ok (.ldDt (fieldX w))
  | 0x18 => .ok (.ldSt (fieldX w))
  | 0x1E => .ok (.addI (fieldX w))
  | 0x29 => .ok (.ldF (fieldX w))
  | 0x33 => .ok (.ldB (fieldX w))
  | 0x55 => .ok (.ldMemVx (fieldX w))
  | 0x65 => .ok (.ldVxMem (fieldX w))
  | _ => .error .unknownF

/-- 0x5 and 0x9 require n3 = 0 (R66). -/
def requireN0 (w : Word) (i : Instr) (r : Reject) : Except Reject Instr :=
  if fieldN w = 0 then .ok i else .error r

/-- The dispatch on n0 (30_encoding.md R65, R66). n0 is a 4-bit field, so the last arm is n0 = 0xF. -/
def decodeWord (w : Word) : Except Reject Instr :=
  match fieldOp w with
  | 0x0 => decode0 w
  | 0x1 => .ok (.jp (fieldNNN w))
  | 0x2 => .ok (.call (fieldNNN w))
  | 0x3 => .ok (.seImm (fieldX w) (fieldKK w))
  | 0x4 => .ok (.sneImm (fieldX w) (fieldKK w))
  | 0x5 => requireN0 w (.seReg (fieldX w) (fieldY w)) .unknown5
  | 0x6 => .ok (.ldImm (fieldX w) (fieldKK w))
  | 0x7 => .ok (.addImm (fieldX w) (fieldKK w))
  | 0x8 => decode8 w
  | 0x9 => requireN0 w (.sneReg (fieldX w) (fieldY w)) .unknown9
  | 0xA => .ok (.ldI (fieldNNN w))
  | 0xB => .ok (.jpV0 (fieldNNN w))
  | 0xC => .ok (.rnd (fieldX w) (fieldKK w))
  | 0xD => .ok (.drw (fieldX w) (fieldY w) (fieldN w))
  | 0xE => decodeE w
  | _ => decodeF w

/-- The two bytes of a word as they lie in memory, the high byte at the lower address
(20_memory.md R42). PRESUMED (log 8): the spec takes the order from general knowledge. Unsafe. -/
def wordBytes (w : Word) : List Byte := [w.extractLsb' 8 8, w.extractLsb' 0 8]

/-- The word that two bytes in memory order make: `MEM[PC] ++ MEM[PC+1]` (20_memory.md R42; log 8). -/
def bytesWord (hi lo : Byte) : Word := hi ++ lo

/-- Decode from bytes: the instruction and the bytes after it. Every instruction takes two (R57). -/
def decode : List Byte → Except Reject (Instr × List Byte)
  | hi :: lo :: rest =>
    match decodeWord (bytesWord hi lo) with
    | .ok i => .ok (i, rest)
    | .error r => .error r
  | _ => .error .truncated

/-- What the decoder reads from an instruction whose bits are `w`, bit 0 the least significant bit of
its one 16-bit word. -/
def decodeTableWord (nbits w : Nat) : Option Instr :=
  match decode (wordBytes (BitVec.ofNat 16 (w % 2 ^ nbits))) with
  | .ok (i, _) => some i
  | .error _ => none

/-! ### Encoding (30_encoding.md R58, R67) -/

/-- Format `A`: op, NNN. -/
def encA (op : BitVec 4) (nnn : BitVec 12) : Word := op ++ nnn

/-- Formats `XK` and `XF`: op, X, a low byte. -/
def encXK (op : BitVec 4) (x : Reg) (kk : Byte) : Word := op ++ BitVec.ofFin (w := 4) x ++ kk

/-- Formats `XY` and `XYN`: op, X, Y, a low nibble. -/
def encXYN (op : BitVec 4) (x y : Reg) (n : BitVec 4) : Word :=
  op ++ BitVec.ofFin (w := 4) x ++ BitVec.ofFin (w := 4) y ++ n

/-- The word of an instruction (30_encoding.md R67). -/
def encodeWord : Instr → Word
  | .nop => encA 0x0 0x000
  | .cls => encA 0x0 0x0E0
  | .ret => encA 0x0 0x0EE
  | .jp nnn => encA 0x1 nnn
  | .call nnn => encA 0x2 nnn
  | .seImm x kk => encXK 0x3 x kk
  | .sneImm x kk => encXK 0x4 x kk
  | .seReg x y => encXYN 0x5 x y 0x0
  | .ldImm x kk => encXK 0x6 x kk
  | .addImm x kk => encXK 0x7 x kk
  | .ldReg x y => encXYN 0x8 x y 0x0
  | .orReg x y => encXYN 0x8 x y 0x1
  | .andReg x y => encXYN 0x8 x y 0x2
  | .xorReg x y => encXYN 0x8 x y 0x3
  | .addReg x y => encXYN 0x8 x y 0x4
  | .sub x y => encXYN 0x8 x y 0x5
  | .shr x y => encXYN 0x8 x y 0x6
  | .subn x y => encXYN 0x8 x y 0x7
  | .shl x y => encXYN 0x8 x y 0xE
  | .sneReg x y => encXYN 0x9 x y 0x0
  | .ldI nnn => encA 0xA nnn
  | .jpV0 nnn => encA 0xB nnn
  | .rnd x kk => encXK 0xC x kk
  | .drw x y n => encXYN 0xD x y n
  | .skp x => encXK 0xE x 0x9E
  | .sknp x => encXK 0xE x 0xA1
  | .ldVxDt x => encXK 0xF x 0x07
  | .ldVxK x => encXK 0xF x 0x0A
  | .ldDt x => encXK 0xF x 0x15
  | .ldSt x => encXK 0xF x 0x18
  | .addI x => encXK 0xF x 0x1E
  | .ldF x => encXK 0xF x 0x29
  | .ldB x => encXK 0xF x 0x33
  | .ldMemVx x => encXK 0xF x 0x55
  | .ldVxMem x => encXK 0xF x 0x65

/-- The bytes of an instruction in memory order. -/
def encode (i : Instr) : List Byte := wordBytes (encodeWord i)

/-! ### The opcode map as the spec prints it: mask and match (30_encoding.md R65, R67) -/

/-- MASK and MATCH of the row of an instruction: a word is of that row iff `w & mask = match`. -/
def rowMaskMatch : Instr → Word × Word
  | .nop => (0xFFFF, 0x0000)
  | .cls => (0xFFFF, 0x00E0)
  | .ret => (0xFFFF, 0x00EE)
  | .jp _ => (0xF000, 0x1000)
  | .call _ => (0xF000, 0x2000)
  | .seImm _ _ => (0xF000, 0x3000)
  | .sneImm _ _ => (0xF000, 0x4000)
  | .seReg _ _ => (0xF00F, 0x5000)
  | .ldImm _ _ => (0xF000, 0x6000)
  | .addImm _ _ => (0xF000, 0x7000)
  | .ldReg _ _ => (0xF00F, 0x8000)
  | .orReg _ _ => (0xF00F, 0x8001)
  | .andReg _ _ => (0xF00F, 0x8002)
  | .xorReg _ _ => (0xF00F, 0x8003)
  | .addReg _ _ => (0xF00F, 0x8004)
  | .sub _ _ => (0xF00F, 0x8005)
  | .shr _ _ => (0xF00F, 0x8006)
  | .subn _ _ => (0xF00F, 0x8007)
  | .shl _ _ => (0xF00F, 0x800E)
  | .sneReg _ _ => (0xF00F, 0x9000)
  | .ldI _ => (0xF000, 0xA000)
  | .jpV0 _ => (0xF000, 0xB000)
  | .rnd _ _ => (0xF000, 0xC000)
  | .drw _ _ _ => (0xF000, 0xD000)
  | .skp _ => (0xF0FF, 0xE09E)
  | .sknp _ => (0xF0FF, 0xE0A1)
  | .ldVxDt _ => (0xF0FF, 0xF007)
  | .ldVxK _ => (0xF0FF, 0xF00A)
  | .ldDt _ => (0xF0FF, 0xF015)
  | .ldSt _ => (0xF0FF, 0xF018)
  | .addI _ => (0xF0FF, 0xF01E)
  | .ldF _ => (0xF0FF, 0xF029)
  | .ldB _ => (0xF0FF, 0xF033)
  | .ldMemVx _ => (0xF0FF, 0xF055)
  | .ldVxMem _ => (0xF0FF, 0xF065)

/-- The mask and match columns of the opcode map, row by row (30_encoding.md R67). -/
def opcodeRows : List (Word × Word) :=
  [(0xFFFF, 0x0000), (0xFFFF, 0x00E0), (0xFFFF, 0x00EE), (0xF000, 0x1000), (0xF000, 0x2000),
   (0xF000, 0x3000), (0xF000, 0x4000), (0xF00F, 0x5000), (0xF000, 0x6000), (0xF000, 0x7000)]
  ++ [(0xF00F, 0x8000), (0xF00F, 0x8001), (0xF00F, 0x8002), (0xF00F, 0x8003), (0xF00F, 0x8004),
   (0xF00F, 0x8005), (0xF00F, 0x8006), (0xF00F, 0x8007), (0xF00F, 0x800E), (0xF00F, 0x9000)]
  ++ [(0xF000, 0xA000), (0xF000, 0xB000), (0xF000, 0xC000), (0xF000, 0xD000), (0xF0FF, 0xE09E),
   (0xF0FF, 0xE0A1), (0xF0FF, 0xF007), (0xF0FF, 0xF00A), (0xF0FF, 0xF015), (0xF0FF, 0xF018)]
  ++ [(0xF0FF, 0xF01E), (0xF0FF, 0xF029), (0xF0FF, 0xF033), (0xF0FF, 0xF055), (0xF0FF, 0xF065)]

/-! ### Assembler spelling (30_encoding.md R73)
PRESUMED (log 23): the operand spelling is the spec's own, after the conventional notation. Safe: no
meaning reads it. -/

/-- One hexadecimal digit, upper case. -/
def hexDigit (d : Nat) : String :=
  match d with
  | 0 => "0" | 1 => "1" | 2 => "2" | 3 => "3" | 4 => "4" | 5 => "5" | 6 => "6" | 7 => "7"
  | 8 => "8" | 9 => "9" | 10 => "A" | 11 => "B" | 12 => "C" | 13 => "D" | 14 => "E" | _ => "F"

/-- A hexadecimal literal of `k` digits, after "0x". -/
def hexLit (k v : Nat) : String :=
  (List.range k).foldl (fun acc j => acc ++ hexDigit (v / 16 ^ (k - 1 - j) % 16)) "0x"

/-- A register, `V0`..`VF`. -/
def asmReg (x : Reg) : String := "V" ++ hexDigit x.val

/-- Two register operands. -/
def asmXY (name : String) (x y : Reg) : String := name ++ " " ++ asmReg x ++ ", " ++ asmReg y

/-- A register and a byte. -/
def asmXK (name : String) (x : Reg) (kk : Byte) : String :=
  name ++ " " ++ asmReg x ++ ", " ++ hexLit 2 kk.toNat

/-- The spelling of an instruction (the syntax column of R67). A BNNN word shows its X as R73 says. -/
def asmInstr (quirkJumpVx : Bool) : Instr → String
  | .nop => "NOP"
  | .cls => "CLS"
  | .ret => "RET"
  | .jp nnn => "JP " ++ hexLit 3 nnn.toNat
  | .call nnn => "CALL " ++ hexLit 3 nnn.toNat
  | .seImm x kk => asmXK "SE" x kk
  | .sneImm x kk => asmXK "SNE" x kk
  | .seReg x y => asmXY "SE" x y
  | .ldImm x kk => asmXK "LD" x kk
  | .addImm x kk => asmXK "ADD" x kk
  | .ldReg x y => asmXY "LD" x y
  | .orReg x y => asmXY "OR" x y
  | .andReg x y => asmXY "AND" x y
  | .xorReg x y => asmXY "XOR" x y
  | .addReg x y => asmXY "ADD" x y
  | .sub x y => asmXY "SUB" x y
  | .shr x y => asmXY "SHR" x y
  | .subn x y => asmXY "SUBN" x y
  | .shl x y => asmXY "SHL" x y
  | .sneReg x y => asmXY "SNE" x y
  | .ldI nnn => "LD I, " ++ hexLit 3 nnn.toNat
  | .jpV0 nnn =>
    if quirkJumpVx then "JP " ++ asmReg (jumpX nnn) ++ ", " ++ hexLit 3 nnn.toNat
    else if jumpX nnn = 0 then "JP V0, " ++ hexLit 3 nnn.toNat
    else "JP V0, " ++ hexLit 3 nnn.toNat ++ " ; x=" ++ hexDigit (jumpX nnn).val
  | .rnd x kk => asmXK "RND" x kk
  | .drw x y n => asmXY "DRW" x y ++ ", " ++ hexLit 1 n.toNat
  | .skp x => "SKP " ++ asmReg x
  | .sknp x => "SKNP " ++ asmReg x
  | .ldVxDt x => "LD " ++ asmReg x ++ ", DT"
  | .ldVxK x => "LD " ++ asmReg x ++ ", K"
  | .ldDt x => "LD DT, " ++ asmReg x
  | .ldSt x => "LD ST, " ++ asmReg x
  | .addI x => "ADD I, " ++ asmReg x
  | .ldF x => "LD F, " ++ asmReg x
  | .ldB x => "LD B, " ++ asmReg x
  | .ldMemVx x => "LD [I], " ++ asmReg x
  | .ldVxMem x => "LD " ++ asmReg x ++ ", [I]"

/-- The spelling of a word: an instruction, or `DW 0xWWWW` for an unknown word (R73). -/
def disassemble (quirkJumpVx : Bool) (w : Word) : String :=
  match decodeWord w with
  | .ok i => asmInstr quirkJumpVx i
  | .error _ => "DW " ++ hexLit 4 w.toNat

end Sys2Proof
end

