-- ==== Sys2Proof/Machine/State.lean ====
section
/-! DEFINITION. The state of the engine (10_state.md R15), its outcomes and its reset. Plain data. -/

namespace Sys2Proof.Machine

/-- FAULT, a 3-bit cause code (10_state.md R26; 60_exceptions.md R120). Codes 5 to 7 are never written. -/
inductive FaultCause where
  /-- 0: no fault -/
  | none
  /-- 1: CALL with SP = 16 (R116) -/
  | stackOverflow
  /-- 2: RET with SP = 0 (R117) -/
  | stackUnderflow
  /-- 3: DRW, LD_B, LD_MEM_VX, LD_VX_MEM with some I + k ≥ MEM_SIZE (R118) -/
  | dataAddress
  /-- 4: SKP, SKNP with V[X] > 15 (R119) -/
  | keyIndex
  deriving DecidableEq, Repr

/-- The three event outputs of a step, "valid until the next step" (10_state.md R37). -/
structure Outputs where
  /-- CONT: "whether the Machine can continue" -/
  cont : Bool
  /-- BEEP: the timer update found ST nonzero -/
  beep : Bool
  /-- UNKNOWN: its valid bit and its word; `none` is (0, 0x0000) -/
  unknown : Option Word
  deriving DecidableEq, Repr

/-- The outputs as a step clears them: CONT = 0, BEEP = 0, UNKNOWN = (0, 0x0000) (30_encoding.md R59). -/
def Outputs.cleared : Outputs := { cont := false, beep := false, unknown := none }

/-- Memory: the bytes that differ from the reset contents, by rising address (log 13). -/
abbrev Memory := List Host.Cell

/-- The display grid, row by row: `DISP[y][x]` is cell x of row y (10_state.md R27; log 16). -/
abbrev Display := List (List Bool)

/-- A display of the given size with every cell unlit. -/
def Display.blank (w h : Nat) : Display := List.replicate h (List.replicate w false)

/-- The state: R15's fields, the step's outputs, and the model's own fields. -/
structure State where
  /-- MODEL's own (log 1): the configuration, read-only. -/
  cfg : Config
  /-- V[0..15] -/
  v : Vector Byte 16
  /-- PC -/
  pc : Word
  /-- I -/
  ireg : Word
  /-- SP, 0..16 -/
  sp : Fin 17
  /-- STACK[0..15] -/
  stack : Vector Word 16
  /-- DT -/
  dt : Byte
  /-- ST -/
  st : Byte
  /-- DISP[y][x] -/
  disp : Display
  /-- KEY[0..15], true = pressed -/
  keys : Vector Bool 16
  /-- MEM[0..MEM_SIZE-1] -/
  mem : Memory
  /-- RNG -/
  rng : BitVec 32
  /-- FAULT -/
  fault : FaultCause
  /-- FAULT_PC -/
  faultPc : Word
  /-- FAULT_WORD -/
  faultWord : Word
  /-- CONT, BEEP, UNKNOWN of the last step (log 7). -/
  out : Outputs
  /-- MODEL's own (log 2): TICK of the coming steps, as far as the host has supplied it. -/
  ticks : List Bool
  /-- MODEL's own (log 3): the coming bytes of `draw8()`, as far as the host has supplied them. -/
  draws : List Byte
  /-- MODEL's own (logs 2, 3): how many free values have been taken. -/
  freeCount : Nat
  deriving DecidableEq, Repr

/-- The reasons a step stops with a fault: NONE. Every abnormal end the spec describes is a next state:
a fault is recorded in FAULT, FAULT_PC and FAULT_WORD and the engine stays there (60_exceptions.md R121,
R122), and the halt is a step that changes nothing (30_encoding.md R60). See logs 5 and 6. -/
inductive Fault where
  deriving DecidableEq, Repr

/-- The reasons for a refusal. -/
inductive Refusal where
  /-- Raised by `exec` alone, for an instruction that has no meaning yet, by its mnemonic. Safe. -/
  | notModelled (mnemonic : String)
  /-- Raised by the host operation `build` alone: "A model refuses to construct a machine from an
  invalid configuration" (70_reset_and_hazards.md R135). Safe. -/
  | invalidConfiguration
  deriving DecidableEq, Repr

/-- The outcome of a step, of an instruction and of `build`. -/
abbrev Result := Host.Outcome State Fault Refusal

/-- The state after construction (10_state.md R15; 70_reset_and_hazards.md R136, R137, R141). Memory lists
nothing: every byte is at its reset content. PC is 16 bits wide (log 14). -/
def State.init (c : Config) : State where
  cfg := c
  v := Vector.replicate 16 0
  pc := BitVec.ofNat 16 c.programStart
  ireg := 0
  sp := 0
  stack := Vector.replicate 16 0
  dt := 0
  st := 0
  disp := Display.blank c.displayW c.displayH
  keys := Vector.replicate 16 false
  mem := []
  rng := c.rngSeed
  fault := .none
  faultPc := 0
  faultWord := 0
  out := Outputs.cleared
  ticks := []
  draws := []
  freeCount := 0

/-- The machine right after reset: construction with the default configuration (00_scope.md R6). The
spec leaves RNG_SEED open: 0 here is a DESIGN CHOICE (log 4). -/
def State.reset : State := State.init Config.default

end Sys2Proof.Machine
end

