-- ==== Sys2Proof/Machine/Ops.lean ====
section
/-! DEFINITION. The named operations over registers, memory, stack and display, fault entry, and the
phases of a step that are not an instruction's meaning. -/

namespace Sys2Proof.Machine

/-! ### One setter per field -/

def State.withV (s : State) (v : Vector Byte 16) : State := { s with v := v }
def State.withPc (s : State) (a : Word) : State := { s with pc := a }
def State.withI (s : State) (a : Word) : State := { s with ireg := a }
def State.withSp (s : State) (n : Fin 17) : State := { s with sp := n }
def State.withStack (s : State) (k : Vector Word 16) : State := { s with stack := k }
def State.withDt (s : State) (b : Byte) : State := { s with dt := b }
def State.withSt (s : State) (b : Byte) : State := { s with st := b }
def State.withDisp (s : State) (d : Display) : State := { s with disp := d }
def State.withKeys (s : State) (k : Vector Bool 16) : State := { s with keys := k }
def State.withMem (s : State) (m : Memory) : State := { s with mem := m }
def State.withRng (s : State) (r : BitVec 32) : State := { s with rng := r }
def State.withFault (s : State) (c : FaultCause) (pc0 w : Word) : State :=
  { s with fault := c, faultPc := pc0, faultWord := w }
def State.withOut (s : State) (o : Outputs) : State := { s with out := o }
def State.withTicks (s : State) (t : List Bool) : State := { s with ticks := t }
def State.withDraws (s : State) (d : List Byte) : State := { s with draws := d }
def State.withFreeCount (s : State) (n : Nat) : State := { s with freeCount := n }

/-! ### Registers (10_state.md R16, R17) -/

/-- `V[i]`. No register is hardwired. -/
def State.getV (s : State) (r : Reg) : Byte := s.v[r]

/-- `V[i] <- b`. -/
def State.setV (s : State) (r : Reg) (b : Byte) : State := s.withV (s.v.set r b)

/-! ### Memory (20_memory.md) -/

/-- The reset content of address `a`: FONT at FONT_BASE..FONT_BASE+79, 0x00 elsewhere
(70_reset_and_hazards.md R137). This is what an unlisted address reads as (log 13). -/
def resetByte (c : Config) (a : Nat) : Byte :=
  if c.fontBase ≤ a ∧ a < c.fontBase + Config.fontSize then c.font.getD (a - c.fontBase) 0 else 0

/-- The byte at `a`. -/
def Memory.read (c : Config) : Memory → Nat → Byte
  | [], a => resetByte c a
  | (a', b) :: m, a => if a = a' then b else Memory.read c m a

/-- Put a cell in front, unless it holds the reset content. -/
def Memory.consCell (c : Config) (a : Nat) (b : Byte) (m : Memory) : Memory :=
  if b = resetByte c a then m else (a, b) :: m

/-- Write the byte at `a`, keeping the canonical form. -/
def Memory.write (c : Config) : Memory → Nat → Byte → Memory
  | [], a, b => Memory.consCell c a b []
  | (a', b') :: m, a, b =>
    if a < a' then Memory.consCell c a b ((a', b') :: m)
    else if a = a' then Memory.consCell c a b m
    else (a', b') :: Memory.write c m a b

/-- The canonical form: addresses strictly rising, no entry equal to the reset content, every address
below MEM_SIZE. -/
abbrev Memory.wf (c : Config) (m : Memory) : Prop :=
  m.Pairwise (fun p q => p.1 < q.1) ∧ ∀ p ∈ m, p.2 ≠ resetByte c p.1 ∧ p.1 < c.memSize

/-- `InBounds(a)`: a < MEM_SIZE on the unbounded integer (00_scope.md R11). -/
def State.inBounds (s : State) (a : Nat) : Bool := decide (a < s.cfg.memSize)

/-- `MemRead(a, 1)` (00_scope.md R11). Reading changes nothing (20_memory.md R47). -/
def State.readByte (s : State) (a : Nat) : Byte := Memory.read s.cfg s.mem a

/-- `MemWrite(a, 1, b)` (00_scope.md R11). -/
def State.writeByte (s : State) (a : Nat) (b : Byte) : State := s.withMem (Memory.write s.cfg s.mem a b)

/-- Consecutive one-byte writes at rising addresses (20_memory.md R41, R44). -/
def State.writeBytes (s : State) (a : Nat) : List Byte → State
  | [] => s
  | b :: bs => (s.writeByte a b).writeBytes (a + 1) bs

/-! ### The call stack (10_state.md R21, R22) -/

/-- A push: write `STACK[SP]`, then increment SP; `none` when the stack is full. -/
def State.push? (s : State) (a : Word) : Option State :=
  if h : s.sp.val < Config.stackDepth then
    some ((s.withStack (s.stack.set s.sp.val a h)).withSp ⟨s.sp.val + 1, Nat.succ_lt_succ h⟩)
  else none

/-- A pop: decrement SP, then read `STACK[SP]`, which is not cleared; `none` when the stack is empty. -/
def State.pop? (s : State) : Option (Word × State) :=
  if h : 0 < s.sp.val then
    some (s.stack[s.sp.val - 1]'(by have := s.sp.isLt; omega),
      s.withSp ⟨s.sp.val - 1, by have := s.sp.isLt; omega⟩)
  else none

/-! ### The program counter (10_state.md R18) -/

/-- A skip adds a further 2, modulo 2^16. -/
def State.skipIf (s : State) (c : Bool) : State := if c then s.withPc (s.pc + 2) else s

/-! ### The display (10_state.md R27) -/

/-- `DISP[y][x]`. -/
def Display.get (d : Display) (y x : Nat) : Bool := (d.getD y []).getD x false

/-- `DISP[y][x] <- DISP[y][x] ^ 1`. -/
def Display.toggle (d : Display) (y x : Nat) : Display := d.modify y (fun row => row.modify x not)

/-- Toggle cells in order, and say whether one was found lit (41_display.md R77: `hit`). -/
def Display.xorCells : Display → List (Nat × Nat) → Display × Bool
  | d, [] => (d, false)
  | d, (y, x) :: cs =>
    let r := Display.xorCells (d.toggle y x) cs
    (r.1, d.get y x || r.2)

/-- The cells the set bits of one sprite byte fall on: bit 7 − c at column (x0 + c) mod W. -/
def spriteRow (w py x0 : Nat) (b : Byte) : List (Nat × Nat) :=
  (List.range 8).filterMap fun c => if b.getMsbD c then some (py, (x0 + c) % w) else none

/-- The cells a sprite's set bits fall on, rows top to bottom from row number `r`, columns left to right,
wrapping on both axes (41_display.md R77). -/
def spriteCells (w h x0 y0 : Nat) : Nat → List Byte → List (Nat × Nat)
  | _, [] => []
  | r, b :: bs => spriteRow w ((y0 + r) % h) x0 b ++ spriteCells w h x0 y0 (r + 1) bs

/-! ### Taking a fault, and the way back (60_exceptions.md R121 to R123) -/

/-- The 3-bit code of a cause (60_exceptions.md R120). -/
def FaultCause.code : FaultCause → BitVec 3
  | .none => 0
  | .stackOverflow => 1
  | .stackUnderflow => 2
  | .dataAddress => 3
  | .keyIndex => 4

/-- Fault entry by instruction `i`, which has changed nothing yet: PC goes back to pc0, the address `i` was
fetched from (00_scope.md R10: `pc - 2`); FAULT, FAULT_PC and FAULT_WORD are written; the outputs are
CONT = 0, BEEP = 0, UNKNOWN = (0, 0) (60_exceptions.md R121). FAULT_WORD is the word of `i` (log 15). -/
def State.raiseFault (s : State) (c : FaultCause) (i : Instr) : State :=
  (((s.withPc (s.pc - 2)).withFault c (s.pc - 2) (encodeWord i)).withOut Outputs.cleared)

/-- The only way back from a fault: reset, which is `build` again with the same configuration
(60_exceptions.md R123; 70_reset_and_hazards.md R140). The program is lost. -/
def State.rebuild (s : State) : State := State.init s.cfg

/-! ### The inputs of a step (10_state.md R34) -/

/-- TICK of this step: what the host supplied, else a free value (log 2). -/
def State.nextTick (s : State) : Bool :=
  match s.ticks with
  | t :: _ => t
  | [] => Config.freeTick s.freeCount

/-- The state after TICK has been taken. -/
def State.popTick (s : State) : State :=
  match s.ticks with
  | _ :: ts => s.withTicks ts
  | [] => s.withFreeCount (s.freeCount + 1)

/-- `draw8()`: what the host supplied, else a free value (43_alu.md R100; log 3). -/
def State.nextDraw (s : State) : Byte :=
  match s.draws with
  | b :: _ => b
  | [] => Config.freeByte s.freeCount

/-- The state after a byte has been drawn. -/
def State.popDraw (s : State) : State :=
  match s.draws with
  | _ :: bs => s.withDraws bs
  | [] => s.withFreeCount (s.freeCount + 1)

/-! ### The phases of a step (30_encoding.md R59) -/

/-- The fetch is in bounds iff PC + 1 < MEM_SIZE (20_memory.md R46). -/
def State.fetchInBounds (s : State) : Bool := decide (s.pc.toNat + 1 < s.cfg.memSize)

/-- `MEM[PC] ++ MEM[PC+1]`, high byte first (20_memory.md R42; log 8). -/
def State.fetchWord (s : State) : Word := bytesWord (s.readByte s.pc.toNat) (s.readByte (s.pc.toNat + 1))

/-- The state a running engine executes an instruction in: the outputs cleared, PC advanced by 2
(30_encoding.md R59, R61). -/
def State.begin (s : State) : State := (s.withOut Outputs.cleared).withPc (s.pc + 2)

/-- A step that changes nothing: in the faulted state, or on the halt (30_encoding.md R59, R60). -/
def State.stopped (s : State) : State := s.withOut Outputs.cleared

/-- A timer moves "toward zero" and stays at 0 (60_exceptions.md R127). -/
def countDown (tick : Bool) (b : Byte) : Byte := if b = 0 then 0 else if tick then b - 1 else b

/-- BEEP: TICK = 1 while ST ≠ 0, before the decrement (60_exceptions.md R129). -/
def beeps (tick : Bool) (st : Byte) : Bool := !(decide (st = 0)) && tick

/-- The timer update (60_exceptions.md R127) and CONT <- 1 (30_encoding.md R59). -/
def State.finish (s : State) (tick : Bool) : State :=
  ((s.withDt (countDown tick s.dt)).withSt (countDown tick s.st)).withOut
    { s.out with cont := true, beep := beeps tick s.st }

/-- The end of a step after the execute phase: a step that faulted ends there, any other runs the timer
update (30_encoding.md R59). -/
def State.complete (s : State) (tick : Bool) : State := if s.fault = .none then s.finish tick else s

/-- An unknown word: emit UNKNOWN, change nothing else (30_encoding.md R68). -/
def State.unknownWord (s : State) (w : Word) : State := s.withOut { s.out with unknown := some w }

/-- The execute phase's outcome, completed. -/
def completeResult (tick : Bool) : Result → Result
  | .next t => .next (t.complete tick)
  | .fault r => .fault r
  | .refused r => .refused r

/-- Store a word where the fetch of `s` reads it; where that fetch is out of bounds there is no such
place, and nothing is stored. -/
def State.storeAtPc (s : State) (w : Word) : State :=
  if s.fetchInBounds then s.writeBytes s.pc.toNat (wordBytes w) else s

end Sys2Proof.Machine
end

