-- ==== Sys2Proof/Machine/Flags.lean ====
section
/-! DEFINITION. The flag computations: what VF receives (10_state.md R20; 43_alu.md R87). -/

namespace Sys2Proof.Machine

/-- `bool(c)` as a register value (00_scope.md R9). -/
def flagByte (c : Bool) : Byte := if c then 1 else 0

/-- The carry of an addition: a + b > 255 on unbounded integers (43_alu.md R87). -/
def carryOut (a b : Byte) : Bool := decide (a.toNat + b.toNat > 255)

/-- No borrow in a − b: a ≥ b (43_alu.md R87). -/
def noBorrow (a b : Byte) : Bool := decide (b.toNat ≤ a.toNat)

/-- The bit a right shift moves out, bit 0 (43_alu.md R96). -/
def shrOut (a : Byte) : Bool := a.getLsbD 0

/-- The bit a left shift moves out, bit 7 (43_alu.md R98). -/
def shlOut (a : Byte) : Bool := a.getLsbD 7

/-- A flag write replaces whatever VF held (10_state.md R17). -/
def State.setVF (s : State) (c : Bool) : State := s.setV VF (flagByte c)

end Sys2Proof.Machine
end

