-- ==== Sys2Proof/Machine/Operands.lean ====
section
/-! DEFINITION. The operand forms (30_encoding.md R64) beyond a plain register and an immediate. -/

namespace Sys2Proof.Machine

/-- Register plus address: NNN + V0, or NNN + VX under QUIRK_JUMP_VX, modulo 2^16 and not masked to
12 bits (42_control_flow.md R86). -/
def State.jumpTarget (s : State) (nnn : BitVec 12) : Word :=
  zextAddr nnn + zextByte (s.getV (if s.cfg.quirkJumpVx then jumpX nnn else 0))

/-- Indirect through I: every address I + k, k < n, exists; on unbounded integers, checked before any
access (20_memory.md R46). -/
def State.indirectOk (s : State) (n : Nat) : Bool :=
  (List.range n).all fun k => s.inBounds (s.ireg.toNat + k)

/-- Indirect through I: the n bytes at I, I+1, …. -/
def State.indirectBytes (s : State) (n : Nat) : List Byte :=
  (List.range n).map fun k => s.readByte (s.ireg.toNat + k)

/-- I after a load or store of n registers: advanced by n under QUIRK_LS_INCREMENT only (44_index_memory.md
R105). The amount is PRESUMED (log 11). Unsafe under the quirk. -/
def State.advanceI (s : State) (n : Nat) : State :=
  if s.cfg.quirkLsIncrement then s.withI (s.ireg + BitVec.ofNat 16 n) else s

/-- The address of the glyph of `b`: FONT_BASE + 5·c modulo 2^16, with c = b, or b & 0x0F under
QUIRK_FONT_MASK (44_index_memory.md R103). -/
def State.glyphAddr (s : State) (b : Byte) : Word :=
  BitVec.ofNat 16 (s.cfg.fontBase + 5 * (if s.cfg.quirkFontMask then b &&& 0x0F else b).toNat)

/-- The key an EX9E or EXA1 names: KEY[b], or `none` when b > 15 (45_keypad_timer.md R107). -/
def State.keyOf? (s : State) (b : Byte) : Option Bool :=
  if h : b.toNat < 16 then some s.keys[b.toNat] else none

/-- The lowest pressed key (45_keypad_timer.md R110). -/
def State.lowestKey? (s : State) : Option (Fin 16) := (List.finRange 16).find? fun k => s.keys[k]

/-- The three decimal digits of a byte, hundreds first (44_index_memory.md R104). -/
def decimalDigits (b : Byte) : List Byte :=
  [BitVec.ofNat 8 (b.toNat / 100), BitVec.ofNat 8 (b.toNat / 10 % 10), BitVec.ofNat 8 (b.toNat % 10)]

/-- V0..VX inclusive (44_index_memory.md R105). -/
def State.lowRegs (s : State) (x : Reg) : List Byte := s.v.toList.take (x.val + 1)

/-- `V[k] <- MEM[I + k]` for k in 0..X; the registers above X are untouched (44_index_memory.md R106). -/
def State.loadRegs (s : State) (x : Reg) : State :=
  s.withV (Vector.ofFn fun k : Fin 16 => if k ≤ x then s.readByte (s.ireg.toNat + k.val) else s.v[k])

end Sys2Proof.Machine
end

