-- ==== Sys2Proof/Machine/Alu.lean ====
section
/-! DEFINITION. Register and ALU instructions and the random number (43_alu.md). The order of the writes
is each rule's: it decides what VF ends as when X = F (92_eei_decisions.md D12; log 18). -/

namespace Sys2Proof.Machine

/-- 6XKK LD Vx, kk (R88). -/
def execLdImm (x : Reg) (kk : Byte) (s : State) : Result := .next (s.setV x kk)

/-- 7XKK ADD Vx, kk: wraps, no flag (R89). -/
def execAddImm (x : Reg) (kk : Byte) (s : State) : Result := .next (s.setV x (s.getV x + kk))

/-- 8XY0 LD Vx, Vy (R90). -/
def execLdReg (x y : Reg) (s : State) : Result := .next (s.setV x (s.getV y))

/-- 8XY1 OR Vx, Vy (R91). -/
def execOrReg (x y : Reg) (s : State) : Result := .next (s.setV x (s.getV x ||| s.getV y))

/-- 8XY2 AND Vx, Vy (R92). -/
def execAndReg (x y : Reg) (s : State) : Result := .next (s.setV x (s.getV x &&& s.getV y))

/-- 8XY3 XOR Vx, Vy (R93). -/
def execXorReg (x y : Reg) (s : State) : Result := .next (s.setV x (s.getV x ^^^ s.getV y))

/-- 8XY4 ADD Vx, Vy: the sum, then the carry into VF (R94). -/
def execAddReg (x y : Reg) (s : State) : Result :=
  .next ((s.setV x (s.getV x + s.getV y)).setVF (carryOut (s.getV x) (s.getV y)))

/-- 8XY5 SUB Vx, Vy: the difference, then no-borrow into VF (R95). -/
def execSub (x y : Reg) (s : State) : Result :=
  .next ((s.setV x (s.getV x - s.getV y)).setVF (noBorrow (s.getV x) (s.getV y)))

/-- 8XY7 SUBN Vx, Vy: the reverse difference, then no-borrow into VF (R97). -/
def execSubn (x y : Reg) (s : State) : Result :=
  .next ((s.setV x (s.getV y - s.getV x)).setVF (noBorrow (s.getV y) (s.getV x)))

/-- A shift as both rules write it: the bit shifted out into VF first, then the shifted value into VX.
By default the operand is VX, read again after the flag write; under QUIRK_SHIFT_VY it is VY, captured
before any write (R96, R98). The quirk's meaning is PRESUMED (log 12). Unsafe under the quirk. -/
def State.shiftBy (s : State) (out : Byte → Bool) (move : Byte → Byte) (x y : Reg) : State :=
  if s.cfg.quirkShiftVy then (s.setVF (out (s.getV y))).setV x (move (s.getV y))
  else
    let t := s.setVF (out (s.getV x))
    t.setV x (move (t.getV x))

/-- 8XY6 SHR Vx, Vy (R96). -/
def execShr (x y : Reg) (s : State) : Result := .next (s.shiftBy shrOut (fun b => b >>> 1) x y)

/-- 8XYE SHL Vx, Vy (R98). -/
def execShl (x y : Reg) (s : State) : Result := .next (s.shiftBy shlOut (fun b => b <<< 1) x y)

/-- One advance of the generator (R99). PRESUMED (log 10): the width and the XOR combination are the
spec's from general knowledge. Unsafe. -/
def xorshift32 (r : BitVec 32) : BitVec 32 :=
  let r := r ^^^ (r <<< 13)
  let r := r ^^^ (r >>> 17)
  r ^^^ (r <<< 5)

/-- The random byte of CXKK and the state after it: RNG advanced and its low byte, or a drawn byte
(R100). -/
def State.randomByte (s : State) : Byte × State :=
  match s.cfg.rngMode with
  | .xorshift32 => ((xorshift32 s.rng).setWidth 8, s.withRng (xorshift32 s.rng))
  | .draw => (s.nextDraw, s.popDraw)

/-- CXKK RND Vx, kk (R100). -/
def execRnd (x : Reg) (kk : Byte) (s : State) : Result :=
  .next (s.randomByte.2.setV x (s.randomByte.1 &&& kk))

end Sys2Proof.Machine
end

