-- ==== Sys2Proof/Machine/Control.lean ====
section
/-! DEFINITION. Control-flow instructions (42_control_flow.md). PC is the advanced value, pc0 + 2. -/

namespace Sys2Proof.Machine

/-- 0000 NOP (R78). -/
def execNop (s : State) : Result := .next s

/-- 00EE RET (R79). -/
def execRet (s : State) : Result :=
  match s.pop? with
  | none => .next (s.raiseFault .stackUnderflow .ret)
  | some (a, t) => .next (t.withPc a)

/-- 1NNN JP nnn (R80). -/
def execJp (nnn : BitVec 12) (s : State) : Result := .next (s.withPc (zextAddr nnn))

/-- 2NNN CALL nnn: pushes the advanced PC (R81). -/
def execCall (nnn : BitVec 12) (s : State) : Result :=
  match s.push? s.pc with
  | none => .next (s.raiseFault .stackOverflow (.call nnn))
  | some t => .next (t.withPc (zextAddr nnn))

/-- 3XKK SE Vx, kk (R82). -/
def execSeImm (x : Reg) (kk : Byte) (s : State) : Result := .next (s.skipIf (s.getV x == kk))

/-- 4XKK SNE Vx, kk (R83). -/
def execSneImm (x : Reg) (kk : Byte) (s : State) : Result := .next (s.skipIf (s.getV x != kk))

/-- 5XY0 SE Vx, Vy (R84). -/
def execSeReg (x y : Reg) (s : State) : Result := .next (s.skipIf (s.getV x == s.getV y))

/-- 9XY0 SNE Vx, Vy (R85). -/
def execSneReg (x y : Reg) (s : State) : Result := .next (s.skipIf (s.getV x != s.getV y))

/-- BNNN JP V0, nnn (R86). -/
def execJpV0 (nnn : BitVec 12) (s : State) : Result := .next (s.withPc (s.jumpTarget nnn))

end Sys2Proof.Machine
end

