-- ==== Sys2Proof/Machine/Display.lean ====
section
/-! DEFINITION. Display instructions (41_display.md). In every meaning, PC is the advanced value. -/

namespace Sys2Proof.Machine

/-- 00E0 CLS: every cell off (R76). -/
def execCls (s : State) : Result := .next (s.withDisp (Display.blank s.cfg.displayW s.cfg.displayH))

/-- The cells DXYN toggles, in order: the set bits of the n bytes at I, anchored at
(V[X] mod W, V[Y] mod H), wrapped on both axes (R77). -/
def State.drawCells (s : State) (x y : Reg) (n : BitVec 4) : List (Nat × Nat) :=
  spriteCells s.cfg.displayW s.cfg.displayH ((s.getV x).toNat % s.cfg.displayW)
    ((s.getV y).toNat % s.cfg.displayH) 0 (s.indirectBytes n.toNat)

/-- DXYN DRW Vx, Vy, n: XOR-draw, then VF <- hit, once (R77). -/
def execDrw (x y : Reg) (n : BitVec 4) (s : State) : Result :=
  if s.indirectOk n.toNat then
    let drawn := s.disp.xorCells (s.drawCells x y n)
    .next ((s.withDisp drawn.1).setVF drawn.2)
  else .next (s.raiseFault .dataAddress (.drw x y n))

end Sys2Proof.Machine
end

