-- ==== Sys2Proof/Machine/Index.lean ====
section
/-! DEFINITION. Address-register and memory instructions (44_index_memory.md). -/

namespace Sys2Proof.Machine

/-- ANNN LD I, nnn (R101). -/
def execLdI (nnn : BitVec 12) (s : State) : Result := .next (s.withI (zextAddr nnn))

/-- FX1E ADD I, Vx: modulo 2^16, no flag (R102). -/
def execAddI (x : Reg) (s : State) : Result := .next (s.withI (s.ireg + zextByte (s.getV x)))

/-- FX29 LD F, Vx (R103). -/
def execLdF (x : Reg) (s : State) : Result := .next (s.withI (s.glyphAddr (s.getV x)))

/-- FX33 LD B, Vx: three decimal digits at I, I+1, I+2 (R104). -/
def execLdB (x : Reg) (s : State) : Result :=
  if s.indirectOk 3 then .next (s.writeBytes s.ireg.toNat (decimalDigits (s.getV x)))
  else .next (s.raiseFault .dataAddress (.ldB x))

/-- FX55 LD [I], Vx: V0..VX inclusive at I..I+X (R105). -/
def execLdMemVx (x : Reg) (s : State) : Result :=
  if s.indirectOk (x.val + 1) then
    .next ((s.writeBytes s.ireg.toNat (s.lowRegs x)).advanceI (x.val + 1))
  else .next (s.raiseFault .dataAddress (.ldMemVx x))

/-- FX65 LD Vx, [I]: memory at I..I+X into V0..VX inclusive (R106). -/
def execLdVxMem (x : Reg) (s : State) : Result :=
  if s.indirectOk (x.val + 1) then .next ((s.loadRegs x).advanceI (x.val + 1))
  else .next (s.raiseFault .dataAddress (.ldVxMem x))

end Sys2Proof.Machine
end

