-- ==== Sys2Proof/Machine/Keypad.lean ====
section
/-! DEFINITION. Keypad and timer instructions (45_keypad_timer.md). They see DT and ST as they stand before
this step's timer update. -/

namespace Sys2Proof.Machine

/-- EX9E SKP Vx (R107). -/
def execSkp (x : Reg) (s : State) : Result :=
  match s.keyOf? (s.getV x) with
  | none => .next (s.raiseFault .keyIndex (.skp x))
  | some pressed => .next (s.skipIf pressed)

/-- EXA1 SKNP Vx (R108). -/
def execSknp (x : Reg) (s : State) : Result :=
  match s.keyOf? (s.getV x) with
  | none => .next (s.raiseFault .keyIndex (.sknp x))
  | some pressed => .next (s.skipIf (!pressed))

/-- FX07 LD Vx, DT (R109). -/
def execLdVxDt (x : Reg) (s : State) : Result := .next (s.setV x s.dt)

/-- FX0A LD Vx, K: the lowest pressed key, or PC back by 2 so that the same instruction runs again
(R110). -/
def execLdVxK (x : Reg) (s : State) : Result :=
  match s.lowestKey? with
  | some k => .next (s.setV x (BitVec.ofNat 8 k.val))
  | none => .next (s.withPc (s.pc - 2))

/-- FX15 LD DT, Vx (R111). -/
def execLdDt (x : Reg) (s : State) : Result := .next (s.withDt (s.getV x))

/-- FX18 LD ST, Vx (R112). -/
def execLdSt (x : Reg) (s : State) : Result := .next (s.withSt (s.getV x))

end Sys2Proof.Machine
end

