-- ==== Sys2Proof/Machine/Step.lean ====
section
/-! DEFINITION. The step (30_encoding.md R59) and the placing of an instruction where it fetches. -/

namespace Sys2Proof.Machine

/-- The fetch was in bounds and gave word `w`: an instruction runs, an unknown word takes the fallback;
then the end of the step. -/
def runWord (tick : Bool) (w : Word) (s : State) : Host.Outcome State Fault Refusal :=
  match decodeWord w with
  | .ok i => completeResult tick (exec i s.begin)
  | .error _ => .next ((s.begin.unknownWord w).complete tick)

/-- `step(TICK)` (R59), in the order of 60_exceptions.md R124: an existing fault, the fetch bounds, the
decode, the instruction. A faulted engine and a halt change nothing but the outputs. -/
def stepTick (tick : Bool) (s : State) : Host.Outcome State Fault Refusal :=
  if s.fault ≠ .none then .next s.stopped
  else if s.fetchInBounds then runWord tick s.fetchWord s
  else .next s.stopped

/-- One step, with the TICK the host has supplied for it or a free one (10_state.md R34; log 2). -/
def step (s : State) : Host.Outcome State Fault Refusal := stepTick s.nextTick s.popTick

/-- `s` with the instruction whose bits are `w` stored where `step` fetches its next instruction. It
stands for a load of the program from outside (log 17). -/
def State.withFetchWord (s : State) (nbits w : Nat) : State := s.storeAtPc (BitVec.ofNat 16 (w % 2 ^ nbits))

end Sys2Proof.Machine
end

