-- ==== Sys2Proof/Machine/HostOps.lean ====
section
/-! DEFINITION. The host's operations, each between two steps (10_state.md R35; 70_reset_and_hazards.md R146,
R147). The step is `stepTick`. -/

namespace Sys2Proof.Machine

/-- `build(config)`: the reset state, or a refusal of an invalid configuration (70_reset_and_hazards.md
R135, R141). -/
def build (c : Config) : Result := if c.valid then .next (State.init c) else .refused .invalidConfiguration

/-- What `load_program` reports (70_reset_and_hazards.md R143). -/
inductive LoadResult where
  | ok
  | programTooLarge
  deriving DecidableEq, Repr

/-- `load_program(bytes)`: all or nothing, and nothing but MEM changes (70_reset_and_hazards.md R143).
A program read from a file acts as its bytes do (R144). -/
def State.loadProgram (s : State) (bytes : List Byte) : LoadResult × State :=
  if s.cfg.memSize - s.cfg.programStart < bytes.length then (.programTooLarge, s)
  else (.ok, s.writeBytes s.cfg.programStart bytes)

/-- `write_keypad(k)`: KEY <- k (10_state.md R35). -/
def State.writeKeypad (s : State) (k : Vector Bool 16) : State := s.withKeys k

/-- The host fixes TICK of the coming steps (10_state.md R34; log 2). -/
def State.supplyTicks (s : State) (ts : List Bool) : State := s.withTicks (s.ticks ++ ts)

/-- The host fixes the coming bytes of `draw8()` (43_alu.md R100; log 3). -/
def State.supplyDraws (s : State) (bs : List Byte) : State := s.withDraws (s.draws ++ bs)

/-- `read_display()`: DISP (10_state.md R36). -/
def State.readDisplay (s : State) : Display := s.disp

/-- `read_sound()`: SOUND_ON = bool(ST ≠ 0) (60_exceptions.md R128). -/
def State.soundOn (s : State) : Bool := !(decide (s.st = 0))

/-- `read_fault()`: FAULT, FAULT_PC, FAULT_WORD (10_state.md R26, R35). -/
def State.readFault (s : State) : BitVec 3 × Word × Word := (s.fault.code, s.faultPc, s.faultWord)

/-- The UNKNOWN output as its valid bit and its word (10_state.md R37). -/
def Outputs.unknownPort (o : Outputs) : Bool × Word :=
  match o.unknown with
  | some w => (true, w)
  | none => (false, 0)

end Sys2Proof.Machine
end

