-- ==== Sys2Proof/Safety.lean ====
section
/-! DEFINITION. What claims are stated in: a running engine, the end of a run, the invariant. -/

namespace Sys2Proof.Machine

/-- The engine is not faulted and its fetch is in bounds: the next step runs a word. -/
abbrev State.Running (s : State) : Prop := s.fault = .none ∧ s.fetchInBounds = true

/-- How a run ends (70_reset_and_hazards.md R145). "A halt is the only successful end." -/
inductive RunEnd where
  | halt
  | fault
  deriving DecidableEq, Repr

/-- The end a step came to: none while CONT = 1; else a halt if FAULT = 0, a fault if not (R145). -/
def State.runEnd (s : State) : Option RunEnd :=
  if s.out.cont then none else if s.fault = .none then some .halt else some .fault

/-- A run of at most `k` steps with no host move but TICK: the first state whose step returned CONT = 0 and
which end that is; `none` when the run goes on, or a step answers no next state. -/
def runToEnd : Nat → State → Option (RunEnd × State)
  | 0, _ => none
  | k + 1, s =>
    match step s with
    | .next t =>
      match t.runEnd with
      | some e => some (e, t)
      | none => runToEnd k t
    | .fault _ => none
    | .refused _ => none

/-- The run ends well within `k` steps: it halts (R145: "A fault refutes any claim that a run ends
well"). -/
def EndsWell (k : Nat) (s : State) : Prop := ∃ t, runToEnd k s = some (.halt, t)

/-- DISP keeps the configured size (10_state.md R38). -/
abbrev Display.sized (w h : Nat) (d : Display) : Prop := d.length = h ∧ ∀ row ∈ d, row.length = w

/-- FAULT = 0 unless a fault was raised: while there is none, the fault registers hold their reset values
and CONT can be anything; once there is one, PC stands at the recorded address (10_state.md R26, R38;
60_exceptions.md R121). -/
abbrev State.faultRecorded (s : State) : Prop :=
  (s.fault = .none → s.faultPc = 0 ∧ s.faultWord = 0) ∧
  (s.fault ≠ .none → s.faultPc = s.pc ∧ s.fetchInBounds = true ∧ s.out.cont = false)

/-- The invariant of every reachable state (10_state.md R38): a valid configuration, memory in canonical
form and inside MEM_SIZE, a display of the configured size, and a coherent fault record. SP ≤ 16 holds by its
type. -/
abbrev State.Inv (s : State) : Prop :=
  s.cfg.valid = true ∧ Memory.wf s.cfg s.mem ∧ s.disp.sized s.cfg.displayW s.cfg.displayH ∧ s.faultRecorded

/-! ### The spec's tables, as statements use them -/

/-- The fault an instruction raises in a state: the table of 60_exceptions.md R120, its conditions on unbounded
integers. No instruction has more than one condition (R124). -/
def faultOf (i : Instr) (s : State) : FaultCause :=
  match i with
  | .call _ => if s.sp.val = 16 then .stackOverflow else .none
  | .ret => if s.sp.val = 0 then .stackUnderflow else .none
  | .drw _ _ n => if ∃ k < n.toNat, s.cfg.memSize ≤ s.ireg.toNat + k then .dataAddress else .none
  | .ldB _ => if s.cfg.memSize ≤ s.ireg.toNat + 2 then .dataAddress else .none
  | .ldMemVx x => if s.cfg.memSize ≤ s.ireg.toNat + x.val then .dataAddress else .none
  | .ldVxMem x => if s.cfg.memSize ≤ s.ireg.toNat + x.val then .dataAddress else .none
  | .skp x => if 15 < (s.getV x).toNat then .keyIndex else .none
  | .sknp x => if 15 < (s.getV x).toNat then .keyIndex else .none
  | _ => .none

/-- The registers an instruction may write: its X, V0..VX for FX65, and VF where a flag is written
(10_state.md R16, R20). -/
def mayWriteReg (i : Instr) (r : Reg) : Prop :=
  match i with
  | .ldImm x _ | .addImm x _ | .rnd x _ | .ldVxDt x | .ldVxK x => r = x
  | .ldReg x _ | .orReg x _ | .andReg x _ | .xorReg x _ => r = x
  | .addReg x _ | .sub x _ | .shr x _ | .subn x _ | .shl x _ => r = x ∨ r = VF
  | .drw _ _ _ => r = VF
  | .ldVxMem x => r ≤ x
  | _ => False

/-- DT as the timer update of this step finds it: what a word FX15 has just written, else DT
(45_keypad_timer.md R111). -/
def State.dtToUpdate (s : State) : Byte :=
  match decodeWord s.fetchWord with
  | .ok (.ldDt x) => s.getV x
  | _ => s.dt

/-- ST as the timer update of this step finds it: what a word FX18 has just written, else ST
(45_keypad_timer.md R112). -/
def State.stToUpdate (s : State) : Byte :=
  match decodeWord s.fetchWord with
  | .ok (.ldSt x) => s.getV x
  | _ => s.st

/-- A timer moves one toward zero on a tick and never below (60_exceptions.md R127). -/
def timerAfter (tick : Bool) (b : Byte) : Nat := if tick then b.toNat - 1 else b.toNat

/-- How many set bits of the n-row sprite at I fall on cell (py, px), when drawn at (V[X], V[Y]): bit 7 − c of
row r falls on row (V[Y] mod H + r) mod H, column (V[X] mod W + c) mod W (41_display.md R77). -/
def State.bitsOn (s : State) (x y : Reg) (n : BitVec 4) (py px : Nat) : Nat :=
  ((List.range n.toNat).flatMap fun r => (List.range 8).map fun c => (r, c)).countP fun rc =>
    (s.readByte (s.ireg.toNat + rc.1)).getLsbD (7 - rc.2)
      && decide (((s.getV y).toNat % s.cfg.displayH + rc.1) % s.cfg.displayH = py)
      && decide (((s.getV x).toNat % s.cfg.displayW + rc.2) % s.cfg.displayW = px)

end Sys2Proof.Machine
end

