-- ==== Sys2Proof/Certificates/Slice0/Obligations.lean ====
section
/-! DEFINITION. The statements for the provers. In a statement about `exec i s`, PC is the advanced value,
pc0 + 2 (00_scope.md R10), and `{ s with … }` is the whole frame: every field not named is unchanged, every
byte of memory among them. Statements about `stepTick tick` hold for TICK = 0 and TICK = 1. -/

open Sys2Proof Sys2Proof.Machine

namespace Sys2Proof.Claims

/-- `i` completes, changes no field but V, and leaves in each register r the value `f r`. -/
def RegsBecome (i : Instr) (s : State) (f : Reg → Nat) : Prop :=
  ∃ u : Vector Byte 16, exec i s = .next { s with v := u } ∧ ∀ r : Reg, (u[r]).toNat = f r

/-- `i` takes the fault `c`: PC is back at pc0 = PC − 2, the fault registers hold the cause, pc0 and the word
of `i`, the outputs are cleared, nothing else changes (60_exceptions.md R121). -/
def TakesFault (i : Instr) (s : State) (c : FaultCause) : Prop :=
  exec i s = .next { s with pc := s.pc - 2, fault := c, faultPc := s.pc - 2, faultWord := encodeWord i,
                            out := { cont := false, beep := false, unknown := none } }

/-- The encoding line of an instruction's rule: every word with these fixed bits decodes to `i` of its own fields
(30_encoding.md R67). -/
def Encodes (mask value : Word) (i : Word → Instr) : Prop :=
  ∀ w : Word, w &&& mask = value → decodeWord w = .ok (i w)

/-- The same state but for call-stack slots at indices ≥ SP. -/
def SameUpToDeadSlots (s t : State) : Prop :=
  t = { s with stack := t.stack } ∧ ∀ (j : Nat) (h : j < 16), j < s.sp.val → t.stack[j] = s.stack[j]

end Sys2Proof.Claims

open Sys2Proof.Claims

/-! ### Encoding -/

/-- Words written out bit by bit from the encodings of the instruction rules. -/
def Obligations.KnownWordsDecode : Prop :=
  decode [0b00000000, 0b11100000] = .ok (.cls, []) ∧
  decode [0b00000000, 0b11101110] = .ok (.ret, []) ∧
  decode [0b00010101, 0b01010101] = .ok (.jp 0x555, []) ∧
  decode [0b00110101, 0b01000010] = .ok (.seImm 5 0x42, []) ∧
  decode [0b10001010, 0b10110110] = .ok (.shr 10 11, []) ∧
  decode [0b11011111, 0b00010010] = .ok (.drw 15 1 2, []) ∧
  decode [0b11101001, 0b10100001] = .ok (.sknp 9, []) ∧
  decode [0b11110011, 0b01100101] = .ok (.ldVxMem 3, []) ∧
  decode [0b01010001, 0b00100001] = .error .unknown5 ∧
  decode [0b10000000] = .error .truncated

/-- Every instruction, with every operand, is read back from its two bytes, and the bytes after it are left. -/
def Obligations.DecodeInvertsEncode : Prop :=
  ∀ (i : Instr) (rest : List Byte), decode (encode i ++ rest) = .ok (i, rest)

/-- Bytes that decode are the encoding of what they decode to: no bit of a defined word is ignored. -/
def Obligations.EncodeInvertsDecode : Prop :=
  ∀ (bs rest : List Byte) (i : Instr), decode bs = .ok (i, rest) → bs = encode i ++ rest

/-- The opcode map has 35 rows; at most one matches a word; a word decodes iff one does, and then its instruction's
row is that one; any other word takes the fallback, so the decoder is total (R65, R75). -/
def Obligations.DecodeFollowsOpcodeMap : Prop :=
  opcodeRows.length = 35 ∧
  (∀ (w : Word), ∀ r ∈ opcodeRows, ∀ q ∈ opcodeRows, w &&& r.1 = r.2 → w &&& q.1 = q.2 → r = q) ∧
  (∀ w : Word, ((∃ i, decodeWord w = .ok i) ↔ ∃ r ∈ opcodeRows, w &&& r.1 = r.2) ∧
    ((∃ r, decodeWord w = .error r) ↔ ¬ ∃ r ∈ opcodeRows, w &&& r.1 = r.2)) ∧
  ∀ (w : Word) (i : Instr), decodeWord w = .ok i →
    rowMaskMatch i ∈ opcodeRows ∧ w &&& (rowMaskMatch i).1 = (rowMaskMatch i).2

/-- The unknown words are exactly the six classes of R69. -/
def Obligations.UnknownWordsAreTheSixClasses : Prop :=
  ∀ w : Word, (∃ r, decodeWord w = .error r) ↔
    let n0 := w.toNat / 4096
    let nnn := w.toNat % 4096
    let kk := w.toNat % 256
    let n := w.toNat % 16
    (n0 = 0 ∧ nnn ≠ 0x000 ∧ nnn ≠ 0x0E0 ∧ nnn ≠ 0x0EE) ∨
    (n0 = 5 ∧ n ≠ 0) ∨
    (n0 = 8 ∧ n ∈ [8, 9, 0xA, 0xB, 0xC, 0xD, 0xF]) ∨
    (n0 = 9 ∧ n ≠ 0) ∨
    (n0 = 0xE ∧ kk ∉ [0x9E, 0xA1]) ∨
    (n0 = 0xF ∧ kk ∉ [0x07, 0x0A, 0x15, 0x18, 0x1E, 0x29, 0x33, 0x55, 0x65])

/-! ### The step -/

/-- When the bytes at PC decode to `i`, the step runs `i` on the state with PC advanced and the outputs
cleared; then, unless `i` faulted, the timer update, BEEP and CONT = 1 (R59, R61). `step` is that with the TICK
the host supplied, or a free one: the last two clauses are the model's own (log 2). -/
def Obligations.StepRunsDecodedInstruction : Prop :=
  ∀ (s : State) (i : Instr) (rest : List Byte),
    (∀ (tick : Bool) (t : State), s.fault = .none → s.pc.toNat + 1 < s.cfg.memSize →
      decode (s.readByte s.pc.toNat :: s.readByte (s.pc.toNat + 1) :: rest) = .ok (i, rest) →
      exec i { s with pc := s.pc + 2, out := { cont := false, beep := false, unknown := none } } = .next t →
      ∃ dt st : Byte, dt.toNat = timerAfter tick t.dt ∧ st.toNat = timerAfter tick t.st ∧
        stepTick tick s = .next (if t.fault = .none then
          { t with dt := dt, st := st,
                   out := { t.out with cont := true, beep := tick && decide (t.st ≠ 0) } } else t)) ∧
    (∀ b bs, s.ticks = b :: bs → step s = stepTick b { s with ticks := bs }) ∧
    (s.ticks = [] → step s = stepTick (Config.freeTick s.freeCount) { s with freeCount := s.freeCount + 1 })

/-- An unknown word changes nothing but PC, the timers on a tick, and UNKNOWN = (1, w); CONT = 1 (R68). -/
def Obligations.UnknownWordIsObservableNoOp : Prop :=
  ∀ (tick : Bool) (s : State) (r : Reject), s.Running → decodeWord s.fetchWord = .error r →
    ∃ dt st : Byte, dt.toNat = timerAfter tick s.dt ∧ st.toNat = timerAfter tick s.st ∧
      stepTick tick s = .next { s with
        pc := s.pc + 2, dt := dt, st := st,
        out := { cont := true, beep := tick && decide (s.st ≠ 0), unknown := some s.fetchWord } }

/-- A fetch out of bounds halts: no state changes, CONT = 0, and every later step halts too, also after the host
has written the keypad or loaded a program (R60). -/
def Obligations.FetchOutOfBoundsHalts : Prop :=
  ∀ (tick tick' : Bool) (s : State), s.fault = .none → s.cfg.memSize ≤ s.pc.toNat + 1 →
    ∃ t, t = { s with out := { cont := false, beep := false, unknown := none } } ∧
      stepTick tick s = .next t ∧ stepTick tick' t = .next t ∧
      ∀ k bs, stepTick tick' ((t.writeKeypad k).loadProgram bs).2 = .next ((t.writeKeypad k).loadProgram bs).2

/-- A faulted engine changes nothing and returns CONT = 0, also after the host has written the keypad or
loaded a program (R122). -/
def Obligations.FaultedEngineIsQuiescent : Prop :=
  ∀ (tick : Bool) (s : State), s.fault ≠ .none →
    stepTick tick s = .next { s with out := { cont := false, beep := false, unknown := none } } ∧
    (∀ k, stepTick tick (s.writeKeypad k) =
      .next { s with keys := k, out := { cont := false, beep := false, unknown := none } }) ∧
    (∀ bs, stepTick tick (s.loadProgram bs).2 =
      .next { s with mem := (s.loadProgram bs).2.mem,
                     out := { cont := false, beep := false, unknown := none } })

/-- A step that faults restores everything and records the cause, the address and the fetched word (R121). -/
def Obligations.FaultEntryIsPrecise : Prop :=
  ∀ (tick : Bool) (s t : State), s.fault = .none → stepTick tick s = .next t → t.fault ≠ .none →
    s.pc.toNat + 1 < s.cfg.memSize ∧
    t = { s with fault := t.fault, faultPc := s.pc, faultWord := s.fetchWord,
                 out := { cont := false, beep := false, unknown := none } }

/-- A running engine's step raises exactly the fault the table of R120 gives the instruction it fetched, with the
table's code; then it changes nothing but the fault registers, which hold the cause, the address and the word,
and the outputs, which are 0. Any other step, one on an unknown word among them, raises none (R116 to R120). -/
def Obligations.StepFaultsAsTabled : Prop :=
  (FaultCause.none.code = 0 ∧ FaultCause.stackOverflow.code = 1 ∧ FaultCause.stackUnderflow.code = 2 ∧
    FaultCause.dataAddress.code = 3 ∧ FaultCause.keyIndex.code = 4) ∧
  ∀ (tick : Bool) (s : State), s.Running →
    (∀ i, decodeWord s.fetchWord = .ok i → faultOf i s ≠ .none →
      stepTick tick s = .next { s with fault := faultOf i s, faultPc := s.pc, faultWord := s.fetchWord,
                                       out := { cont := false, beep := false, unknown := none } }) ∧
    (∀ i, decodeWord s.fetchWord = .ok i → faultOf i s = .none →
      ∃ t, stepTick tick s = .next t ∧ t.fault = .none) ∧
    (∀ r, decodeWord s.fetchWord = .error r → ∃ t, stepTick tick s = .next t ∧ t.fault = .none)

/-- Every step answers a next state. No word traps (R71); that a fault, a step of a faulted engine and a halt are
next states too, and no abnormal end lies outside the state, is the model's own reading of R60, R121 and R122
(logs 5 and 6, DEDUCED). -/
def Obligations.EveryStepAnswersNext : Prop := ∀ s : State, ∃ t, step s = .next t

/-- CONT = 0 exactly on a step in the faulted state, a halt, and a fault (R37); and the end a run comes to is a
halt exactly when an unfaulted engine's fetch is out of bounds, a fault exactly when FAULT ≠ 0 (R145). -/
def Obligations.ContAndRunEnd : Prop :=
  ∀ (tick : Bool) (s t : State), stepTick tick s = .next t →
    (t.out.cont = false ↔ s.fault ≠ .none ∨ s.cfg.memSize ≤ s.pc.toNat + 1 ∨ t.fault ≠ .none) ∧
    (t.runEnd = some .halt ↔ s.fault = .none ∧ s.cfg.memSize ≤ s.pc.toNat + 1) ∧
    (t.runEnd = some .fault ↔ t.fault ≠ .none)

/-- The timers: a step with CONT = 1 moves each timer by the tick rule from what the instruction left, a step
with CONT = 0 leaves both; BEEP is a tick that finds ST nonzero (R127, R129). -/
def Obligations.TimersFollowTicks : Prop :=
  ∀ (tick : Bool) (s t : State), stepTick tick s = .next t →
    (t.out.cont = true → t.dt.toNat = timerAfter tick s.dtToUpdate ∧ t.st.toNat = timerAfter tick s.stToUpdate) ∧
    (t.out.cont = false → t.dt = s.dt ∧ t.st = s.st) ∧
    (t.out.beep = true ↔ t.out.cont = true ∧ tick = true ∧ s.stToUpdate ≠ 0)

/-! ### The invariant, construction, the host -/

/-- Every step keeps the invariant (R38). -/
def Obligations.StepKeepsInvariant : Prop := ∀ s t : State, s.Inv → step s = .next t → t.Inv

/-- The state after reset meets the invariant. -/
def Obligations.ResetMeetsInvariant : Prop := State.reset.Inv

/-- Every host move keeps the invariant: `write_keypad`, `load_program` and reset (R35, R140). The supplies of TICKs
and of drawn bytes are no host operations of R35 but moves on the model's own queues (logs 2 and 3, DESIGN
CHOICE); their clauses are the model's. -/
def Obligations.HostMovesKeepInvariant : Prop :=
  ∀ s : State, s.Inv →
    (∀ k, (s.writeKeypad k).Inv) ∧ (∀ bs, (s.loadProgram bs).2.Inv) ∧ (∀ ts, (s.supplyTicks ts).Inv) ∧
    (∀ bs, (s.supplyDraws bs).Inv) ∧ s.rebuild.Inv

/-- `build` refuses exactly the configurations that break R135, and a machine it builds meets the invariant. -/
def Obligations.BuildRefusesInvalidConfigurations : Prop :=
  ∀ c : Config,
    ((1 ≤ c.memSize ∧ c.memSize ≤ 65536 ∧ c.programStart ≤ c.memSize ∧ c.fontBase + 80 ≤ c.memSize ∧
        1 ≤ c.displayW ∧ 1 ≤ c.displayH ∧ c.font.length = 80) →
      ∃ t, build c = .next t ∧ t.Inv) ∧
    (¬ (1 ≤ c.memSize ∧ c.memSize ≤ 65536 ∧ c.programStart ≤ c.memSize ∧ c.fontBase + 80 ≤ c.memSize ∧
        1 ≤ c.displayW ∧ 1 ≤ c.displayH ∧ c.font.length = 80) →
      build c = .refused .invalidConfiguration)

/-- What construction leaves (R136, R137): every register zero but PC = PROGRAM_START and RNG =
RNG_SEED, FAULT = 0, the display unlit at its size, FONT at FONT_BASE and 0x00 in every other byte. -/
def Obligations.ConstructionResetValues : Prop :=
  ∀ (c : Config) (t : State), build c = .next t →
    t.cfg = c ∧ (∀ r : Reg, t.getV r = 0) ∧ (c.programStart < 65536 → t.pc.toNat = c.programStart) ∧ t.ireg = 0 ∧
    t.sp = 0 ∧ (∀ j : Fin 16, t.stack[j] = 0) ∧ t.dt = 0 ∧ t.st = 0 ∧
    t.disp.sized c.displayW c.displayH ∧ (∀ y x, t.disp.get y x = false) ∧
    (∀ k : Fin 16, t.keys[k] = false) ∧ t.rng = c.rngSeed ∧
    t.fault = .none ∧ t.faultPc = 0 ∧ t.faultWord = 0 ∧
    (∀ k < 80, t.readByte (c.fontBase + k) = c.font.getD k 0) ∧
    (∀ a, (a < c.fontBase ∨ c.fontBase + 80 ≤ a) → t.readByte a = 0)

/-- `load_program` is all or nothing: it writes exactly its window, or reports PROGRAM_TOO_LARGE and changes
nothing; no other state changes (R143). -/
def Obligations.LoadProgramWritesItsWindow : Prop :=
  ∀ (s : State) (bs : List Byte), s.Inv →
    (s.cfg.memSize - s.cfg.programStart < bs.length → s.loadProgram bs = (.programTooLarge, s)) ∧
    (bs.length ≤ s.cfg.memSize - s.cfg.programStart →
      ∃ m, s.loadProgram bs = (.ok, { s with mem := m }) ∧
        (∀ k < bs.length, State.readByte { s with mem := m } (s.cfg.programStart + k) = bs.getD k 0) ∧
        ∀ a, (a < s.cfg.programStart ∨ s.cfg.programStart + bs.length ≤ a) →
          State.readByte { s with mem := m } a = s.readByte a)

/-! ### Display instructions -/

/-- CLS leaves every cell unlit and changes nothing else (R76). -/
def Obligations.ClsUnlightsEveryCell : Prop :=
  Encodes 0xFFFF 0x00E0 (fun _ => .cls) ∧
  ∀ s : State, ∃ d : Display, exec .cls s = .next { s with disp := d } ∧
    d.sized s.cfg.displayW s.cfg.displayH ∧ ∀ y x, d.get y x = false

/-- DRW flips each cell as often as set sprite bits fall on it; VF is 1 iff some set bit found its cell lit,
that is a cell lit before, or one hit twice (possible on a display narrower than 8 or shorter than n only).
Nothing else changes. For n = 0 nothing is drawn and VF = 0. An address at or beyond MEM_SIZE faults (R77). -/
def Obligations.DrwXorsTheSprite : Prop :=
  Encodes 0xF000 0xD000 (fun w => .drw (fieldX w) (fieldY w) (fieldN w)) ∧
  (∀ (s : State) (x y : Reg) (n : BitVec 4), (∃ k < n.toNat, s.cfg.memSize ≤ s.ireg.toNat + k) →
    TakesFault (.drw x y n) s .dataAddress) ∧
  ∀ (s : State) (x y : Reg) (n : BitVec 4), s.Inv →
    (∀ k < n.toNat, s.ireg.toNat + k < s.cfg.memSize) →
    ∃ (d : Display) (u : Vector Byte 16), exec (.drw x y n) s = .next { s with disp := d, v := u } ∧
      d.sized s.cfg.displayW s.cfg.displayH ∧
      (∀ py px, py < s.cfg.displayH → px < s.cfg.displayW →
        d.get py px = (s.disp.get py px ^^ decide (s.bitsOn x y n py px % 2 = 1))) ∧
      (∀ r : Reg, r ≠ VF → u[r] = s.v[r]) ∧
      ((∃ py px, py < s.cfg.displayH ∧ px < s.cfg.displayW ∧
          ((s.disp.get py px = true ∧ 1 ≤ s.bitsOn x y n py px) ∨ 2 ≤ s.bitsOn x y n py px)) →
        u[VF] = 1) ∧
      ((¬ ∃ py px, py < s.cfg.displayH ∧ px < s.cfg.displayW ∧
          ((s.disp.get py px = true ∧ 1 ≤ s.bitsOn x y n py px) ∨ 2 ≤ s.bitsOn x y n py px)) →
        u[VF] = 0)

/-- Drawing the same sprite at the same place twice restores the display, on every display size; VF need not
be the same, and neither X nor Y is VF (R77, corner case 8). -/
def Obligations.DrawingTwiceRestoresDisplay : Prop :=
  ∀ (s t : State) (x y : Reg) (n : BitVec 4), x ≠ VF → y ≠ VF →
    (∀ k < n.toNat, s.ireg.toNat + k < s.cfg.memSize) → exec (.drw x y n) s = .next t →
    ∃ u, exec (.drw x y n) t = .next u ∧ u.disp = s.disp

/-- On a blank display, the second draw of a sprite with a set bit sets VF = 1 and leaves the display blank
(R77; 95_test_vectors.md L1.6). -/
def Obligations.SecondDrawCollides : Prop :=
  ∀ (s t : State) (x y : Reg) (n : BitVec 4), s.Inv → x ≠ VF → y ≠ VF →
    (∀ py px, s.disp.get py px = false) →
    (∀ k < n.toNat, s.ireg.toNat + k < s.cfg.memSize) →
    (∃ k < n.toNat, s.readByte (s.ireg.toNat + k) ≠ 0) → exec (.drw x y n) s = .next t →
    ∃ u, exec (.drw x y n) t = .next u ∧ u.getV VF = 1 ∧ ∀ py px, u.disp.get py px = false

/-! ### Control flow -/

/-- NOP changes nothing (R78). -/
def Obligations.NopChangesNothing : Prop :=
  Encodes 0xFFFF 0x0000 (fun _ => .nop) ∧ ∀ s : State, exec .nop s = .next s

/-- JP: PC = NNN; JP_V0: PC = NNN + V0, or NNN + VX under QUIRK_JUMP_VX, with X = NNN[11:8], modulo 2^16 and
not masked to 12 bits (R80, R86). -/
def Obligations.JumpsSetPc : Prop :=
  Encodes 0xF000 0x1000 (fun w => .jp (fieldNNN w)) ∧ Encodes 0xF000 0xB000 (fun w => .jpV0 (fieldNNN w)) ∧
  ∀ (s : State) (nnn : BitVec 12),
    (∃ a : Word, exec (.jp nnn) s = .next { s with pc := a } ∧ a.toNat = nnn.toNat) ∧
    (∀ x : Reg, x.val = nnn.toNat / 256 →
      ∃ a : Word, exec (.jpV0 nnn) s = .next { s with pc := a } ∧
        a.toNat = (nnn.toNat + (if s.cfg.quirkJumpVx then s.getV x else s.getV 0).toNat) % 65536)

/-- CALL pushes the advanced PC and jumps; on a full stack it faults (R81, R116). -/
def Obligations.CallPushesAndJumps : Prop :=
  Encodes 0xF000 0x2000 (fun w => .call (fieldNNN w)) ∧
  ∀ (s : State) (nnn : BitVec 12),
    (s.sp.val = 16 → TakesFault (.call nnn) s .stackOverflow) ∧
    (s.sp.val < 16 →
      ∃ (k : Vector Word 16) (n : Fin 17) (a : Word),
        exec (.call nnn) s = .next { s with stack := k, sp := n, pc := a } ∧
        n.val = s.sp.val + 1 ∧ a.toNat = nnn.toNat ∧
        ∀ j : Fin 16, k[j] = if j.val = s.sp.val then s.pc else s.stack[j])

/-- RET pops: SP is decremented, then PC is read from STACK[SP], which is not cleared; on an empty stack it faults
(R79, R117). -/
def Obligations.RetPopsIntoPc : Prop :=
  Encodes 0xFFFF 0x00EE (fun _ => .ret) ∧
  ∀ s : State,
    (s.sp.val = 0 → TakesFault .ret s .stackUnderflow) ∧
    ∀ j : Fin 16, s.sp.val = j.val + 1 →
      ∃ n : Fin 17, n.val = j.val ∧ exec .ret s = .next { s with sp := n, pc := s.stack[j] }

/-- A RET from any state with the SP and the slots that CALL left returns to the instruction after the CALL
(95_test_vectors.md L1.10). -/
def Obligations.CallThenRetReturns : Prop :=
  ∀ (s t u : State) (nnn : BitVec 12), s.sp.val < 16 → exec (.call nnn) s = .next t →
    u.sp = t.sp → u.stack = t.stack →
    ∃ r, exec .ret u = .next r ∧ r.pc = s.pc ∧ r.sp = s.sp ∧ r.stack = t.stack

/-- The four skips add 2 to PC, modulo 2^16, exactly when their condition holds (R82 to R85). -/
def Obligations.SkipsOnComparison : Prop :=
  Encodes 0xF000 0x3000 (fun w => .seImm (fieldX w) (fieldKK w)) ∧
  Encodes 0xF000 0x4000 (fun w => .sneImm (fieldX w) (fieldKK w)) ∧
  Encodes 0xF00F 0x5000 (fun w => .seReg (fieldX w) (fieldY w)) ∧
  Encodes 0xF00F 0x9000 (fun w => .sneReg (fieldX w) (fieldY w)) ∧
  ∀ (s : State) (x y : Reg) (kk : Byte),
    exec (.seImm x kk) s = .next { s with pc := if s.getV x = kk then s.pc + 2 else s.pc } ∧
    exec (.sneImm x kk) s = .next { s with pc := if s.getV x = kk then s.pc else s.pc + 2 } ∧
    exec (.seReg x y) s = .next { s with pc := if s.getV x = s.getV y then s.pc + 2 else s.pc } ∧
    exec (.sneReg x y) s = .next { s with pc := if s.getV x = s.getV y then s.pc else s.pc + 2 }

/-! ### Register and ALU instructions -/

/-- LD_IMM and LD_REG copy into VX; VF too when X = F, as data (R88, R90). -/
def Obligations.LoadsCopyIntoVx : Prop :=
  Encodes 0xF000 0x6000 (fun w => .ldImm (fieldX w) (fieldKK w)) ∧
  Encodes 0xF00F 0x8000 (fun w => .ldReg (fieldX w) (fieldY w)) ∧
  ∀ (s : State) (x y : Reg) (kk : Byte),
    RegsBecome (.ldImm x kk) s (fun r => if r = x then kk.toNat else (s.getV r).toNat) ∧
    RegsBecome (.ldReg x y) s (fun r => if r = x then (s.getV y).toNat else (s.getV r).toNat)

/-- ADD_IMM wraps modulo 256 and writes no flag (R89). -/
def Obligations.AddImmediateWrapsWithoutFlag : Prop :=
  Encodes 0xF000 0x7000 (fun w => .addImm (fieldX w) (fieldKK w)) ∧
  ∀ (s : State) (x : Reg) (kk : Byte),
    RegsBecome (.addImm x kk) s
      (fun r => if r = x then ((s.getV x).toNat + kk.toNat) % 256 else (s.getV r).toNat)

/-- OR, AND, XOR, bit by bit, and no flag (R91 to R93). -/
def Obligations.LogicIsBitwiseWithoutFlag : Prop :=
  Encodes 0xF00F 0x8001 (fun w => .orReg (fieldX w) (fieldY w)) ∧
  Encodes 0xF00F 0x8002 (fun w => .andReg (fieldX w) (fieldY w)) ∧
  Encodes 0xF00F 0x8003 (fun w => .xorReg (fieldX w) (fieldY w)) ∧
  ∀ (s : State) (x y : Reg),
    (∃ u : Vector Byte 16, exec (.orReg x y) s = .next { s with v := u } ∧ (∀ r : Reg, r ≠ x → u[r] = s.v[r]) ∧
      ∀ b, (u[x]).getLsbD b = ((s.getV x).getLsbD b || (s.getV y).getLsbD b)) ∧
    (∃ u : Vector Byte 16, exec (.andReg x y) s = .next { s with v := u } ∧ (∀ r : Reg, r ≠ x → u[r] = s.v[r]) ∧
      ∀ b, (u[x]).getLsbD b = ((s.getV x).getLsbD b && (s.getV y).getLsbD b)) ∧
    (∃ u : Vector Byte 16, exec (.xorReg x y) s = .next { s with v := u } ∧ (∀ r : Reg, r ≠ x → u[r] = s.v[r]) ∧
      ∀ b, (u[x]).getLsbD b = ((s.getV x).getLsbD b ^^ (s.getV y).getLsbD b))

/-- ADD_REG: the sum modulo 256 into VX, then the carry into VF, which wins when X = F (R94). -/
def Obligations.AddRegisterSetsCarry : Prop :=
  Encodes 0xF00F 0x8004 (fun w => .addReg (fieldX w) (fieldY w)) ∧
  ∀ (s : State) (x y : Reg),
    RegsBecome (.addReg x y) s (fun r =>
      let sum := (s.getV x).toNat + (s.getV y).toNat
      if r = VF then (if sum > 255 then 1 else 0) else if r = x then sum % 256 else (s.getV r).toNat)

/-- SUB and SUBN: the difference modulo 256 into VX, then no-borrow into VF, which wins when X = F; equal
operands give no borrow (R95, R97). -/
def Obligations.SubtractionsSetNoBorrow : Prop :=
  Encodes 0xF00F 0x8005 (fun w => .sub (fieldX w) (fieldY w)) ∧
  Encodes 0xF00F 0x8007 (fun w => .subn (fieldX w) (fieldY w)) ∧
  ∀ (s : State) (x y : Reg),
    let a := (s.getV x).toNat
    let b := (s.getV y).toNat
    RegsBecome (.sub x y) s (fun r =>
      if r = VF then (if a ≥ b then 1 else 0) else if r = x then (a + 256 - b) % 256 else (s.getV r).toNat) ∧
    RegsBecome (.subn x y) s (fun r =>
      if r = VF then (if b ≥ a then 1 else 0) else if r = x then (b + 256 - a) % 256 else (s.getV r).toNat)

/-- SHR: VF gets bit 0 of the operand first, then VX half of it. By default the operand is VX, read again
after the flag write, so X = F ends as 0; under QUIRK_SHIFT_VY it is VY, captured before, and X = F ends as
VY / 2 (R96). -/
def Obligations.ShrShiftsOutBitZero : Prop :=
  Encodes 0xF00F 0x8006 (fun w => .shr (fieldX w) (fieldY w)) ∧
  ∀ (s : State) (x y : Reg),
    (s.cfg.quirkShiftVy = false →
      RegsBecome (.shr x y) s (fun r =>
        if r = x then (if x = VF then 0 else (s.getV x).toNat / 2)
        else if r = VF then (s.getV x).toNat % 2 else (s.getV r).toNat)) ∧
    (s.cfg.quirkShiftVy = true →
      RegsBecome (.shr x y) s (fun r =>
        if r = x then (s.getV y).toNat / 2
        else if r = VF then (s.getV y).toNat % 2 else (s.getV r).toNat))

/-- SHL: VF gets bit 7 of the operand first, then VX twice it modulo 256. By default the operand is VX, read
again after the flag write, so X = F ends as 2·(old bit 7); under QUIRK_SHIFT_VY it is VY, captured before
(R98). -/
def Obligations.ShlShiftsOutBitSeven : Prop :=
  Encodes 0xF00F 0x800E (fun w => .shl (fieldX w) (fieldY w)) ∧
  ∀ (s : State) (x y : Reg),
    (s.cfg.quirkShiftVy = false →
      RegsBecome (.shl x y) s (fun r =>
        if r = x then (if x = VF then 2 * ((s.getV x).toNat / 128) else 2 * (s.getV x).toNat % 256)
        else if r = VF then (s.getV x).toNat / 128 else (s.getV r).toNat)) ∧
    (s.cfg.quirkShiftVy = true →
      RegsBecome (.shl x y) s (fun r =>
        if r = x then 2 * (s.getV y).toNat % 256
        else if r = VF then (s.getV y).toNat / 128 else (s.getV r).toNat))

/-- RND with RNG_MODE = xorshift32: RNG advances by the three xorshift steps (shifts modulo 2^32), whatever KK
is, and VX is its new low byte AND KK, bit by bit (R99). -/
def Obligations.RndAdvancesTheGenerator : Prop :=
  Encodes 0xF000 0xC000 (fun w => .rnd (fieldX w) (fieldKK w)) ∧
  ∀ (s : State) (x : Reg) (kk : Byte), s.cfg.rngMode = .xorshift32 →
    ∃ (a b g : BitVec 32) (u : Vector Byte 16),
      a = s.rng ^^^ BitVec.ofNat 32 (s.rng.toNat * 2 ^ 13) ∧
      b = a ^^^ BitVec.ofNat 32 (a.toNat / 2 ^ 17) ∧
      g = b ^^^ BitVec.ofNat 32 (b.toNat * 2 ^ 5) ∧
      exec (.rnd x kk) s = .next { s with rng := g, v := u } ∧
      (∀ r : Reg, r ≠ x → u[r] = s.v[r]) ∧
      ∀ j, (u[x]).getLsbD j = (decide (j < 8) && g.getLsbD j && kk.getLsbD j)

/-- RND with RNG_MODE = draw: VX is the drawn byte AND KK, RNG is unchanged. The byte is the next one the host
supplied; where it supplied none it is a free value, and this says nothing of it (R100; the supply and the
counter are the model's own, log 3). -/
def Obligations.RndTakesADrawnByte : Prop :=
  ∀ (s : State) (x : Reg) (kk : Byte), s.cfg.rngMode = .draw →
    (∀ b bs, s.draws = b :: bs →
      ∃ u : Vector Byte 16, exec (.rnd x kk) s = .next { s with draws := bs, v := u } ∧
        u[x] = b &&& kk ∧ ∀ r : Reg, r ≠ x → u[r] = s.v[r]) ∧
    (s.draws = [] →
      ∃ (u : Vector Byte 16) (b : Byte),
        exec (.rnd x kk) s = .next { s with freeCount := s.freeCount + 1, v := u } ∧
        u[x] = b &&& kk ∧ ∀ r : Reg, r ≠ x → u[r] = s.v[r])

/-! ### Address register and memory -/

/-- LD_I, ADD_I and LD_F write I and nothing else; ADD_I wraps modulo 2^16 without a flag; LD_F is
FONT_BASE + 5·VX, VX masked to its low nibble under QUIRK_FONT_MASK (R101 to R103). -/
def Obligations.AddressRegisterWrites : Prop :=
  Encodes 0xF000 0xA000 (fun w => .ldI (fieldNNN w)) ∧
  Encodes 0xF0FF 0xF01E (fun w => .addI (fieldX w)) ∧
  Encodes 0xF0FF 0xF029 (fun w => .ldF (fieldX w)) ∧
  ∀ (s : State) (x : Reg) (nnn : BitVec 12),
    (∃ a : Word, exec (.ldI nnn) s = .next { s with ireg := a } ∧ a.toNat = nnn.toNat) ∧
    (∃ a : Word, exec (.addI x) s = .next { s with ireg := a } ∧
      a.toNat = (s.ireg.toNat + (s.getV x).toNat) % 65536) ∧
    (∃ a : Word, exec (.ldF x) s = .next { s with ireg := a } ∧
      a.toNat = (s.cfg.fontBase +
        5 * (if s.cfg.quirkFontMask then (s.getV x).toNat % 16 else (s.getV x).toNat)) % 65536)

/-- LD_B stores the hundreds, tens and ones of VX at I, I+1, I+2; every other byte, and every other field,
is unchanged. An address at or beyond MEM_SIZE faults, on unbounded integers, and nothing is stored (R104). -/
def Obligations.LdBStoresThreeDigits : Prop :=
  Encodes 0xF0FF 0xF033 (fun w => .ldB (fieldX w)) ∧
  ∀ (s : State) (x : Reg),
    (s.cfg.memSize ≤ s.ireg.toNat + 2 → TakesFault (.ldB x) s .dataAddress) ∧
    (Memory.wf s.cfg s.mem → s.ireg.toNat + 2 < s.cfg.memSize →
      ∃ m, exec (.ldB x) s = .next { s with mem := m } ∧
        (State.readByte { s with mem := m } s.ireg.toNat).toNat = (s.getV x).toNat / 100 ∧
        (State.readByte { s with mem := m } (s.ireg.toNat + 1)).toNat = (s.getV x).toNat / 10 % 10 ∧
        (State.readByte { s with mem := m } (s.ireg.toNat + 2)).toNat = (s.getV x).toNat % 10 ∧
        ∀ a, (a < s.ireg.toNat ∨ s.ireg.toNat + 2 < a) → State.readByte { s with mem := m } a = s.readByte a)

/-- LD_MEM_VX stores V0..VX at I..I+X; every other byte is unchanged; I advances by X + 1 modulo 2^16 under
QUIRK_LS_INCREMENT only. An address at or beyond MEM_SIZE faults, and nothing is stored (R105). -/
def Obligations.LdMemVxStoresRegisters : Prop :=
  Encodes 0xF0FF 0xF055 (fun w => .ldMemVx (fieldX w)) ∧
  ∀ (s : State) (x : Reg),
    (s.cfg.memSize ≤ s.ireg.toNat + x.val → TakesFault (.ldMemVx x) s .dataAddress) ∧
    (Memory.wf s.cfg s.mem → s.ireg.toNat + x.val < s.cfg.memSize →
      ∃ (m : Memory) (a : Word), exec (.ldMemVx x) s = .next { s with mem := m, ireg := a } ∧
        a.toNat = (if s.cfg.quirkLsIncrement then (s.ireg.toNat + x.val + 1) % 65536 else s.ireg.toNat) ∧
        (∀ k : Reg, k ≤ x → State.readByte { s with mem := m } (s.ireg.toNat + k.val) = s.getV k) ∧
        ∀ b, (b < s.ireg.toNat ∨ s.ireg.toNat + x.val < b) →
          State.readByte { s with mem := m } b = s.readByte b)

/-- LD_VX_MEM loads V0..VX from I..I+X; the registers above X and all of memory are unchanged; I advances by
X + 1 modulo 2^16 under QUIRK_LS_INCREMENT only. An address at or beyond MEM_SIZE faults, and nothing is loaded
(R106). -/
def Obligations.LdVxMemLoadsRegisters : Prop :=
  Encodes 0xF0FF 0xF065 (fun w => .ldVxMem (fieldX w)) ∧
  ∀ (s : State) (x : Reg),
    (s.cfg.memSize ≤ s.ireg.toNat + x.val → TakesFault (.ldVxMem x) s .dataAddress) ∧
    (s.ireg.toNat + x.val < s.cfg.memSize →
      ∃ (u : Vector Byte 16) (a : Word), exec (.ldVxMem x) s = .next { s with v := u, ireg := a } ∧
        a.toNat = (if s.cfg.quirkLsIncrement then (s.ireg.toNat + x.val + 1) % 65536 else s.ireg.toNat) ∧
        ∀ r : Reg, u[r] = if r ≤ x then s.readByte (s.ireg.toNat + r.val) else s.getV r)

/-- FX55 then, with the same X and I, FX65 gives V0..VX back, whatever the registers held in between
(95_test_vectors.md L1.8). -/
def Obligations.StoreThenLoadRoundTrips : Prop :=
  ∀ (s t u : State) (x : Reg), Memory.wf s.cfg s.mem → s.ireg.toNat + x.val < s.cfg.memSize →
    exec (.ldMemVx x) s = .next t → u.cfg = t.cfg → u.mem = t.mem → u.ireg = s.ireg →
    ∃ r, exec (.ldVxMem x) u = .next r ∧
      ∀ k : Reg, (k ≤ x → r.getV k = s.getV k) ∧ (x < k → r.getV k = u.getV k)

/-- A store is seen by the next fetch: after FX55 with I at the advanced PC and X ≥ 1, the next fetch reads
the word V0 ++ V1, the byte at the lower address as its high byte (20_memory.md). -/
def Obligations.StoresAreFetched : Prop :=
  ∀ (s t : State) (x : Reg), Memory.wf s.cfg s.mem → 1 ≤ x.val → s.ireg = s.pc →
    s.ireg.toNat + x.val < s.cfg.memSize → exec (.ldMemVx x) s = .next t →
    t.fetchInBounds = true ∧ t.fetchWord.toNat = (s.getV 0).toNat * 256 + (s.getV 1).toNat

/-! ### Keypad and timers -/

/-- SKP skips iff key VX is pressed, SKNP iff it is not; a key number above 15 faults in both (R107, R108, R119). -/
def Obligations.KeySkips : Prop :=
  Encodes 0xF0FF 0xE09E (fun w => .skp (fieldX w)) ∧ Encodes 0xF0FF 0xE0A1 (fun w => .sknp (fieldX w)) ∧
  ∀ (s : State) (x : Reg),
    (15 < (s.getV x).toNat → TakesFault (.skp x) s .keyIndex ∧ TakesFault (.sknp x) s .keyIndex) ∧
    ∀ k : Fin 16, (s.getV x).toNat = k.val →
      exec (.skp x) s = .next { s with pc := if s.keys[k] then s.pc + 2 else s.pc } ∧
      exec (.sknp x) s = .next { s with pc := if s.keys[k] then s.pc else s.pc + 2 }

/-- FX07, FX15 and FX18 move between VX and a timer, as it stands before this step's update, and change nothing
else; SOUND_ON is ST ≠ 0, at once after FX18 (R109, R111, R112, R128). -/
def Obligations.TimerRegisterMoves : Prop :=
  Encodes 0xF0FF 0xF007 (fun w => .ldVxDt (fieldX w)) ∧ Encodes 0xF0FF 0xF015 (fun w => .ldDt (fieldX w)) ∧
  Encodes 0xF0FF 0xF018 (fun w => .ldSt (fieldX w)) ∧
  ∀ (s : State) (x : Reg),
    RegsBecome (.ldVxDt x) s (fun r => if r = x then s.dt.toNat else (s.getV r).toNat) ∧
    exec (.ldDt x) s = .next { s with dt := s.getV x } ∧
    exec (.ldSt x) s = .next { s with st := s.getV x } ∧
    (s.soundOn = true ↔ s.st.toNat ≠ 0) ∧
    (State.soundOn { s with st := s.getV x } = true ↔ (s.getV x).toNat ≠ 0)

/-- FX0A with a key pressed puts the lowest pressed key's number in VX; with none pressed PC goes back to pc0, and
the waiting step is a complete one: PC unchanged, the timers run, CONT = 1 (R110). -/
def Obligations.KeyWaitTakesLowestKey : Prop :=
  Encodes 0xF0FF 0xF00A (fun w => .ldVxK (fieldX w)) ∧
  (∀ (s : State) (x : Reg) (k : Fin 16), s.keys[k] = true → (∀ j : Fin 16, j < k → s.keys[j] = false) →
    RegsBecome (.ldVxK x) s (fun r => if r = x then k.val else (s.getV r).toNat)) ∧
  ∀ (s : State) (x : Reg), (∀ k : Fin 16, s.keys[k] = false) →
    exec (.ldVxK x) s = .next { s with pc := s.pc - 2 } ∧
    ∀ tick : Bool, s.Running → decodeWord s.fetchWord = .ok (.ldVxK x) →
      ∃ dt st : Byte, dt.toNat = timerAfter tick s.dt ∧ st.toNat = timerAfter tick s.st ∧
        stepTick tick s = .next { s with
          dt := dt, st := st, out := { cont := true, beep := tick && decide (s.st ≠ 0), unknown := none } }

/-! ### The whole machine -/

/-- Every instruction answers a next state, and each piece of state has only the writers the spec names: the
configuration and KEY have none; PC, beyond the fetch's advance, has the jumps, CALL, RET, the skips, a waiting
FX0A and fault entry (R16, R18 to R28, R31, R40, R61). The model's own fields are in it too: the TICK queue has
no writer (log 2); the queue of drawn bytes and the counter of free values have RND under RNG_MODE = draw
(log 3). -/
def Obligations.StateHasOnlyItsNamedWriters : Prop :=
  ∀ (i : Instr) (s : State), ∃ t, exec i s = .next t ∧
    t.cfg = s.cfg ∧ t.keys = s.keys ∧ t.ticks = s.ticks ∧
    (∀ r : Reg, t.getV r ≠ s.getV r → mayWriteReg i r) ∧
    (t.pc ≠ s.pc → faultOf i s ≠ .none ∨ (∃ nnn, i = .jp nnn ∨ i = .jpV0 nnn ∨ i = .call nnn) ∨ i = .ret ∨
      (∃ x kk, i = .seImm x kk ∨ i = .sneImm x kk) ∨ (∃ x y, i = .seReg x y ∨ i = .sneReg x y) ∨
      ∃ x, i = .skp x ∨ i = .sknp x ∨ i = .ldVxK x) ∧
    (t.ireg ≠ s.ireg → (∃ nnn, i = .ldI nnn) ∨ (∃ x, i = .addI x) ∨ (∃ x, i = .ldF x) ∨
      (s.cfg.quirkLsIncrement = true ∧ ∃ x, i = .ldMemVx x ∨ i = .ldVxMem x)) ∧
    ((t.sp ≠ s.sp ∨ t.stack ≠ s.stack) → i = .ret ∨ ∃ nnn, i = .call nnn) ∧
    (i = .ret → t.stack = s.stack) ∧
    (t.dt ≠ s.dt → ∃ x, i = .ldDt x) ∧ (t.st ≠ s.st → ∃ x, i = .ldSt x) ∧
    (t.disp ≠ s.disp → i = .cls ∨ ∃ x y n, i = .drw x y n) ∧
    (t.mem ≠ s.mem → ∃ x, i = .ldB x ∨ i = .ldMemVx x) ∧
    (t.rng ≠ s.rng → ∃ x kk, i = .rnd x kk) ∧
    ((t.draws ≠ s.draws ∨ t.freeCount ≠ s.freeCount) → s.cfg.rngMode = .draw ∧ ∃ x kk, i = .rnd x kk) ∧
    ((t.fault ≠ s.fault ∨ t.faultPc ≠ s.faultPc ∨ t.faultWord ≠ s.faultWord ∨ t.out ≠ s.out) →
      faultOf i s ≠ .none)

/-- Slots of the call stack at indices ≥ SP cannot be observed: two states that differ there only are taken by
a step to two states that differ there only (R22). -/
def Obligations.DeadStackSlotsAreUnobservable : Prop :=
  ∀ s s' : State, SameUpToDeadSlots s s' →
    ∃ t t', step s = .next t ∧ step s' = .next t' ∧ SameUpToDeadSlots t t'
end

