-- ==== Sys2Proof/Laws/Decode.lean ====
section
/-! SUPPORT. The fields of an encoded word, and a word from its fields: one lemma per field per format. -/

namespace Sys2Proof

/-- An encoder's format as a number: every field law is linear arithmetic after this. -/
theorem encA_toNat (op : BitVec 4) (nnn : BitVec 12) :
    (encA op nnn).toNat = op.toNat * 4096 + nnn.toNat := by
  have := nnn.isLt
  simp only [encA, BitVec.toNat_append, Nat.shiftLeft_eq]
  rw [← Nat.shiftLeft_eq, ← Nat.shiftLeft_add_eq_or_of_lt this, Nat.shiftLeft_eq]

theorem encXK_toNat (op : BitVec 4) (x : Reg) (kk : Byte) :
    (encXK op x kk).toNat = op.toNat * 4096 + x.val * 256 + kk.toNat := by
  have h1 := kk.isLt
  have h2 : x.val < 2 ^ 4 := x.isLt
  simp only [encXK, BitVec.toNat_append, BitVec.toNat_ofFin]
  rw [← Nat.shiftLeft_add_eq_or_of_lt h1, ← Nat.shiftLeft_add_eq_or_of_lt h2]
  simp only [Nat.shiftLeft_eq]
  omega

theorem encXYN_toNat (op : BitVec 4) (x y : Reg) (n : BitVec 4) :
    (encXYN op x y n).toNat = op.toNat * 4096 + x.val * 256 + y.val * 16 + n.toNat := by
  have h1 := n.isLt
  have h2 : x.val < 2 ^ 4 := x.isLt
  have h3 : y.val < 2 ^ 4 := y.isLt
  simp only [encXYN, BitVec.toNat_append, BitVec.toNat_ofFin]
  rw [← Nat.shiftLeft_add_eq_or_of_lt h1, ← Nat.shiftLeft_add_eq_or_of_lt h3,
    ← Nat.shiftLeft_add_eq_or_of_lt h2]
  simp only [Nat.shiftLeft_eq]
  omega

/-! ### Fields as numbers -/

theorem fieldOp_eq (w : Word) : fieldOp w = w.toNat / 4096 := by
  have := w.isLt
  simp only [fieldOp, BitVec.extractLsb'_toNat, Nat.shiftRight_eq_div_pow]
  omega

theorem fieldNNN_toNat (w : Word) : (fieldNNN w).toNat = w.toNat % 4096 := by
  simp [fieldNNN, BitVec.extractLsb'_toNat]

theorem fieldKK_toNat (w : Word) : (fieldKK w).toNat = w.toNat % 256 := by
  simp [fieldKK, BitVec.extractLsb'_toNat]

theorem fieldX_val (w : Word) : (fieldX w).val = w.toNat / 256 % 16 := by
  show (w.extractLsb' 8 4).toNat = _
  simp [BitVec.extractLsb'_toNat, Nat.shiftRight_eq_div_pow]

theorem fieldY_val (w : Word) : (fieldY w).val = w.toNat / 16 % 16 := by
  show (w.extractLsb' 4 4).toNat = _
  simp [BitVec.extractLsb'_toNat, Nat.shiftRight_eq_div_pow]

theorem fieldN_toNat (w : Word) : (fieldN w).toNat = w.toNat % 16 := by
  simp [fieldN, BitVec.extractLsb'_toNat]

/-! ### Format A -/

@[simp] theorem fieldOp_encA (op : BitVec 4) (nnn : BitVec 12) : fieldOp (encA op nnn) = op.toNat := by
  have := nnn.isLt
  rw [fieldOp_eq, encA_toNat]; omega

@[simp] theorem fieldNNN_encA (op : BitVec 4) (nnn : BitVec 12) : fieldNNN (encA op nnn) = nnn := by
  have := nnn.isLt
  apply BitVec.eq_of_toNat_eq
  rw [fieldNNN_toNat, encA_toNat]; omega

/-! ### Formats XK and XF -/

@[simp] theorem fieldOp_encXK (op : BitVec 4) (x : Reg) (kk : Byte) :
    fieldOp (encXK op x kk) = op.toNat := by
  have := kk.isLt; have := x.isLt
  rw [fieldOp_eq, encXK_toNat]; omega

@[simp] theorem fieldX_encXK (op : BitVec 4) (x : Reg) (kk : Byte) : fieldX (encXK op x kk) = x := by
  have := kk.isLt; have := x.isLt
  apply Fin.ext
  rw [fieldX_val, encXK_toNat]; omega

@[simp] theorem fieldKK_encXK (op : BitVec 4) (x : Reg) (kk : Byte) : fieldKK (encXK op x kk) = kk := by
  have := kk.isLt; have := x.isLt
  apply BitVec.eq_of_toNat_eq
  rw [fieldKK_toNat, encXK_toNat]; omega

/-! ### Formats XY and XYN -/

@[simp] theorem fieldOp_encXYN (op : BitVec 4) (x y : Reg) (n : BitVec 4) :
    fieldOp (encXYN op x y n) = op.toNat := by
  have := n.isLt; have := x.isLt; have := y.isLt
  rw [fieldOp_eq, encXYN_toNat]; omega

@[simp] theorem fieldX_encXYN (op : BitVec 4) (x y : Reg) (n : BitVec 4) :
    fieldX (encXYN op x y n) = x := by
  have := n.isLt; have := x.isLt; have := y.isLt
  apply Fin.ext
  rw [fieldX_val, encXYN_toNat]; omega

@[simp] theorem fieldY_encXYN (op : BitVec 4) (x y : Reg) (n : BitVec 4) :
    fieldY (encXYN op x y n) = y := by
  have := n.isLt; have := x.isLt; have := y.isLt
  apply Fin.ext
  rw [fieldY_val, encXYN_toNat]; omega

@[simp] theorem fieldN_encXYN (op : BitVec 4) (x y : Reg) (n : BitVec 4) :
    fieldN (encXYN op x y n) = n := by
  have := n.isLt; have := x.isLt; have := y.isLt
  apply BitVec.eq_of_toNat_eq
  rw [fieldN_toNat, encXYN_toNat]; omega

/-! ### A word from its fields -/

theorem word_eq_encA (w : Word) (op : BitVec 4) (h : fieldOp w = op.toNat) :
    encA op (fieldNNN w) = w := by
  have := w.isLt
  apply BitVec.eq_of_toNat_eq
  rw [encA_toNat, ← h, fieldOp_eq, fieldNNN_toNat]; omega

theorem word_eq_encXK (w : Word) (op : BitVec 4) (kk : Byte) (h : fieldOp w = op.toNat)
    (hk : (fieldKK w).toNat = kk.toNat) : encXK op (fieldX w) kk = w := by
  have := w.isLt
  apply BitVec.eq_of_toNat_eq
  rw [encXK_toNat, ← h, ← hk, fieldOp_eq, fieldX_val, fieldKK_toNat]; omega

theorem word_eq_encXYN (w : Word) (op n : BitVec 4) (h : fieldOp w = op.toNat)
    (hn : (fieldN w).toNat = n.toNat) : encXYN op (fieldX w) (fieldY w) n = w := by
  have := w.isLt
  apply BitVec.eq_of_toNat_eq
  rw [encXYN_toNat, ← h, ← hn, fieldOp_eq, fieldX_val, fieldY_val, fieldN_toNat]; omega

/-! ### Bytes -/

@[simp] theorem bytesWord_wordBytes (w : Word) : bytesWord (w.extractLsb' 8 8) (w.extractLsb' 0 8) = w := by
  have := w.isLt
  apply BitVec.eq_of_toNat_eq
  have h : (w.extractLsb' 0 8).toNat < 2 ^ 8 := (w.extractLsb' 0 8).isLt
  rw [bytesWord, BitVec.toNat_append, ← Nat.shiftLeft_add_eq_or_of_lt h]
  simp only [BitVec.extractLsb'_toNat, Nat.shiftRight_eq_div_pow, Nat.shiftLeft_eq]
  omega

theorem bytesWord_toNat (hi lo : Byte) : (bytesWord hi lo).toNat = hi.toNat * 256 + lo.toNat := by
  have := lo.isLt
  rw [bytesWord, BitVec.toNat_append, ← Nat.shiftLeft_add_eq_or_of_lt this, Nat.shiftLeft_eq]

/-- Decoding bytes is decoding the word they make, high byte first. -/
theorem decode_cons_cons (hi lo : Byte) (rest : List Byte) :
    decode (hi :: lo :: rest) = (decodeWord (bytesWord hi lo)).map (fun i => (i, rest)) := by
  simp only [decode]
  cases decodeWord (bytesWord hi lo) <;> rfl

end Sys2Proof
end

