-- ==== Sys2Proof/Laws/Display.lean ====
section
/-! SUPPORT. The display: toggling a cell, toggling a list of cells, the cells of a sprite. -/

namespace Sys2Proof.Machine

/-! ### One cell -/

theorem Display.toggle_toggle (d : Display) (y x : Nat) : (d.toggle y x).toggle y x = d := by
  unfold Display.toggle
  refine List.ext_getElem (by simp) fun i h1 h2 => ?_
  simp only [List.getElem_modify]
  split
  · refine List.ext_getElem (by simp) fun j h3 h4 => ?_
    simp only [List.getElem_modify]
    split <;> simp
  · rfl

theorem Display.toggle_comm (d : Display) (y x y' x' : Nat) :
    (d.toggle y x).toggle y' x' = (d.toggle y' x').toggle y x := by
  unfold Display.toggle
  refine List.ext_getElem (by simp) fun i h1 h2 => ?_
  simp only [List.getElem_modify]
  refine List.ext_getElem (by split <;> split <;> simp) fun j h3 h4 => ?_
  by_cases hy : y = i <;> by_cases hy' : y' = i <;> simp [hy, hy', List.getElem_modify]
  split <;> split <;> rfl

theorem Display.get_toggle (d : Display) (y x y' x' : Nat) (hy : y < d.length)
    (hx : x < (d.getD y []).length) :
    (d.toggle y x).get y' x' = if y' = y ∧ x' = x then !(d.get y' x') else d.get y' x' := by
  have hx' : x < d[y].length := by simpa [List.getD_eq_getElem?_getD, hy] using hx
  unfold Display.get Display.toggle
  by_cases h : y' = y
  · subst h
    by_cases h' : x' = x
    · subst h'
      simp [List.getD_eq_getElem?_getD, hy, hx']
    · have h'' : ¬ x = x' := fun e => h' e.symm
      simp [List.getD_eq_getElem?_getD, hy, h', h'']
  · have h' : ¬ y = y' := fun e => h e.symm
    simp [List.getD_eq_getElem?_getD, h, h']

theorem Display.sized_toggle {w h : Nat} (d : Display) (hd : d.sized w h) (y x : Nat) :
    (d.toggle y x).sized w h := by
  refine ⟨by simpa [Display.toggle] using hd.1, fun row hr => ?_⟩
  obtain ⟨i, hi, rfl⟩ := List.mem_iff_getElem.mp hr
  have hi' : i < d.length := by simpa [Display.toggle] using hi
  have := hd.2 d[i] (List.getElem_mem hi')
  simp only [Display.toggle, List.getElem_modify]
  split <;> simpa using this

theorem Display.sized_blank (w h : Nat) : (Display.blank w h).sized w h :=
  ⟨by simp [Display.blank], fun row hr => by rw [(List.mem_replicate.mp hr).2]; simp⟩

@[simp] theorem Display.get_blank (w h y x : Nat) : (Display.blank w h).get y x = false := by
  unfold Display.get Display.blank
  by_cases hy : y < h <;> by_cases hx : x < w <;>
    simp [List.getD_eq_getElem?_getD, hy, hx]

/-- A toggle inside a sized display. -/
theorem Display.get_toggle_sized {w h : Nat} (d : Display) (hd : d.sized w h) (y x y' x' : Nat) (hy : y < h)
    (hx : x < w) :
    (d.toggle y x).get y' x' = if y' = y ∧ x' = x then !(d.get y' x') else d.get y' x' := by
  have hy' : y < d.length := by rw [hd.1]; exact hy
  refine Display.get_toggle d y x y' x' hy' ?_
  have : (d.getD y []).length = w := by
    simpa [List.getD_eq_getElem?_getD, hy'] using hd.2 d[y] (List.getElem_mem hy')
  omega

/-! ### A list of cells -/

theorem Display.sized_xorCells {w h : Nat} (d : Display) (hd : d.sized w h) (cs : List (Nat × Nat)) :
    (d.xorCells cs).1.sized w h := by
  induction cs generalizing d with
  | nil => exact hd
  | cons p cs ih => exact ih _ (Display.sized_toggle d hd p.1 p.2)

/-- A toggle before a list of toggles can be made after it. -/
theorem Display.xorCells_toggle (d : Display) (y x : Nat) (cs : List (Nat × Nat)) :
    ((d.toggle y x).xorCells cs).1 = ((d.xorCells cs).1).toggle y x := by
  induction cs generalizing d with
  | nil => rfl
  | cons p cs ih =>
    show (((d.toggle y x).toggle p.1 p.2).xorCells cs).1 = (((d.toggle p.1 p.2).xorCells cs).1).toggle y x
    rw [Display.toggle_comm, ih]

/-- The same cells toggled twice: the display is as it was. -/
theorem Display.xorCells_xorCells (d : Display) (cs : List (Nat × Nat)) :
    ((d.xorCells cs).1.xorCells cs).1 = d := by
  induction cs generalizing d with
  | nil => rfl
  | cons p cs ih =>
    show ((((d.toggle p.1 p.2).xorCells cs).1.toggle p.1 p.2).xorCells cs).1 = d
    rw [Display.xorCells_toggle, ih, Display.toggle_toggle]

/-- What a cell holds after the toggles: flipped when it occurs an odd number of times. -/
theorem Display.get_xorCells {w h : Nat} (d : Display) (hd : d.sized w h) (cs : List (Nat × Nat))
    (hcs : ∀ p ∈ cs, p.1 < h ∧ p.2 < w) (y x : Nat) :
    (d.xorCells cs).1.get y x = (d.get y x ^^ decide (cs.count (y, x) % 2 = 1)) := by
  induction cs generalizing d with
  | nil => simp [Display.xorCells]
  | cons p cs ih =>
    obtain ⟨py, px⟩ := p
    have hp := hcs (py, px) (by simp)
    show ((d.toggle py px).xorCells cs).1.get y x = _
    rw [ih _ (Display.sized_toggle d hd py px) fun q hq => hcs q (by simp [hq]),
      Display.get_toggle_sized d hd py px y x hp.1 hp.2, List.count_cons]
    by_cases e : y = py ∧ x = px
    · obtain ⟨rfl, rfl⟩ := e
      rcases Nat.mod_two_eq_zero_or_one (cs.count (y, x)) with e | e
      · have : (cs.count (y, x) + 1) % 2 = 1 := by omega
        simp [e, this]
      · have : (cs.count (y, x) + 1) % 2 = 0 := by omega
        simp [e, this]
    · have : ¬ ((py, px) = (y, x)) := fun h => e ⟨(Prod.mk.inj h).1.symm, (Prod.mk.inj h).2.symm⟩
      simp [e, this]

/-- A toggle finds its cell lit iff some listed cell was lit before or is listed twice. -/
theorem Display.xorCells_hit {w h : Nat} (d : Display) (hd : d.sized w h) (cs : List (Nat × Nat))
    (hcs : ∀ p ∈ cs, p.1 < h ∧ p.2 < w) :
    (d.xorCells cs).2 = true ↔
      ∃ p ∈ cs, d.get p.1 p.2 = true ∨ 2 ≤ cs.count p := by
  induction cs generalizing d with
  | nil => simp [Display.xorCells]
  | cons p cs ih =>
    obtain ⟨py, px⟩ := p
    have hp := hcs (py, px) (by simp)
    show (d.get py px || ((d.toggle py px).xorCells cs).2) = true ↔ _
    rw [Bool.or_eq_true, ih _ (Display.sized_toggle d hd py px) fun q hq => hcs q (by simp [hq])]
    constructor
    · rintro (h | ⟨q, hq, h⟩)
      · exact ⟨(py, px), by simp, .inl h⟩
      · refine ⟨q, by simp [hq], ?_⟩
        rw [Display.get_toggle_sized d hd py px q.1 q.2 hp.1 hp.2] at h
        by_cases e : q = (py, px)
        · subst e
          right
          have := List.count_pos_iff.mpr hq
          rw [List.count_cons_self]; omega
        · have e' : ¬ (q.1 = py ∧ q.2 = px) := fun h => e (Prod.ext h.1 h.2)
          rw [if_neg e'] at h
          rcases h with h | h
          · exact .inl h
          · right; rw [List.count_cons]; omega
    · rintro ⟨q, hq, h⟩
      by_cases e : q = (py, px)
      · subst e
        rcases h with h | h
        · exact .inl h
        · by_cases hl : d.get py px = true
          · exact .inl hl
          · have hc : 1 ≤ cs.count (py, px) := by rw [List.count_cons_self] at h; omega
            refine .inr ⟨(py, px), List.count_pos_iff.mp hc, .inl ?_⟩
            rw [Display.get_toggle_sized d hd py px py px hp.1 hp.2]
            simp [hl]
      · have hq' : q ∈ cs := by simpa [e] using hq
        have e' : ¬ (q.1 = py ∧ q.2 = px) := fun h => e (Prod.ext h.1 h.2)
        refine .inr ⟨q, hq', ?_⟩
        rw [Display.get_toggle_sized d hd py px q.1 q.2 hp.1 hp.2, if_neg e']
        have e'' : ¬ (py, px) = q := fun h => e h.symm
        simpa [List.count_cons, e''] using h

/-! ### The cells of a sprite -/

theorem mem_spriteRow (w py x0 : Nat) (b : Byte) (p : Nat × Nat) :
    p ∈ spriteRow w py x0 b ↔ ∃ c < 8, b.getMsbD c = true ∧ p = (py, (x0 + c) % w) := by
  simp only [spriteRow, List.mem_filterMap, List.mem_range]
  constructor
  · rintro ⟨c, hc, h⟩
    split at h
    · rename_i hb; exact ⟨c, hc, hb, (Option.some.inj h).symm⟩
    · simp at h
  · rintro ⟨c, hc, hb, rfl⟩
    exact ⟨c, hc, by simp [hb]⟩

theorem mem_spriteCells (w h x0 y0 : Nat) (r0 : Nat) (bs : List Byte) (p : Nat × Nat) :
    p ∈ spriteCells w h x0 y0 r0 bs ↔
      ∃ r < bs.length, ∃ c < 8, (bs.getD r 0).getMsbD c = true ∧
        p = ((y0 + (r0 + r)) % h, (x0 + c) % w) := by
  induction bs generalizing r0 with
  | nil => simp [spriteCells]
  | cons b bs ih =>
    simp only [spriteCells, List.mem_append, mem_spriteRow, ih, List.length_cons]
    constructor
    · rintro (⟨c, hc, hb, rfl⟩ | ⟨r, hr, c, hc, hb, rfl⟩)
      · exact ⟨0, by omega, c, hc, by simpa using hb, by simp⟩
      · exact ⟨r + 1, by omega, c, hc, by simpa using hb, by
          rw [show y0 + (r0 + 1 + r) = y0 + (r0 + (r + 1)) by omega]⟩
    · rintro ⟨r, hr, c, hc, hb, rfl⟩
      cases r with
      | zero => exact .inl ⟨c, hc, by simpa using hb, by simp⟩
      | succ r => exact .inr ⟨r, by omega, c, hc, by simpa using hb, by
          rw [show y0 + (r0 + 1 + r) = y0 + (r0 + (r + 1)) by omega]⟩

/-- Every cell of a sprite lies on the display. -/
theorem spriteCells_bounds (w h x0 y0 r0 : Nat) (bs : List Byte) (hw : 1 ≤ w) (hh : 1 ≤ h) :
    ∀ p ∈ spriteCells w h x0 y0 r0 bs, p.1 < h ∧ p.2 < w := by
  intro p hp
  obtain ⟨r, -, c, -, -, rfl⟩ := (mem_spriteCells w h x0 y0 r0 bs p).mp hp
  exact ⟨Nat.mod_lt _ hh, Nat.mod_lt _ hw⟩

end Sys2Proof.Machine
end

