-- ==== Sys2Proof/Laws/State.lean ====
section
/-! SUPPORT. One lemma per field per setter of State: no later proof unfolds a record update. -/

namespace Sys2Proof.Machine

variable (s : State)

@[simp] theorem State.withV_cfg (x : Vector Byte 16) : (s.withV x).cfg = s.cfg := rfl
@[simp] theorem State.withV_v (x : Vector Byte 16) : (s.withV x).v = x := rfl
@[simp] theorem State.withV_pc (x : Vector Byte 16) : (s.withV x).pc = s.pc := rfl
@[simp] theorem State.withV_ireg (x : Vector Byte 16) : (s.withV x).ireg = s.ireg := rfl
@[simp] theorem State.withV_sp (x : Vector Byte 16) : (s.withV x).sp = s.sp := rfl
@[simp] theorem State.withV_stack (x : Vector Byte 16) : (s.withV x).stack = s.stack := rfl
@[simp] theorem State.withV_dt (x : Vector Byte 16) : (s.withV x).dt = s.dt := rfl
@[simp] theorem State.withV_st (x : Vector Byte 16) : (s.withV x).st = s.st := rfl
@[simp] theorem State.withV_disp (x : Vector Byte 16) : (s.withV x).disp = s.disp := rfl
@[simp] theorem State.withV_keys (x : Vector Byte 16) : (s.withV x).keys = s.keys := rfl
@[simp] theorem State.withV_mem (x : Vector Byte 16) : (s.withV x).mem = s.mem := rfl
@[simp] theorem State.withV_rng (x : Vector Byte 16) : (s.withV x).rng = s.rng := rfl
@[simp] theorem State.withV_fault (x : Vector Byte 16) : (s.withV x).fault = s.fault := rfl
@[simp] theorem State.withV_faultPc (x : Vector Byte 16) : (s.withV x).faultPc = s.faultPc := rfl
@[simp] theorem State.withV_faultWord (x : Vector Byte 16) : (s.withV x).faultWord = s.faultWord := rfl
@[simp] theorem State.withV_out (x : Vector Byte 16) : (s.withV x).out = s.out := rfl
@[simp] theorem State.withV_ticks (x : Vector Byte 16) : (s.withV x).ticks = s.ticks := rfl
@[simp] theorem State.withV_draws (x : Vector Byte 16) : (s.withV x).draws = s.draws := rfl
@[simp] theorem State.withV_freeCount (x : Vector Byte 16) : (s.withV x).freeCount = s.freeCount := rfl

@[simp] theorem State.withPc_cfg (x : Word) : (s.withPc x).cfg = s.cfg := rfl
@[simp] theorem State.withPc_v (x : Word) : (s.withPc x).v = s.v := rfl
@[simp] theorem State.withPc_pc (x : Word) : (s.withPc x).pc = x := rfl
@[simp] theorem State.withPc_ireg (x : Word) : (s.withPc x).ireg = s.ireg := rfl
@[simp] theorem State.withPc_sp (x : Word) : (s.withPc x).sp = s.sp := rfl
@[simp] theorem State.withPc_stack (x : Word) : (s.withPc x).stack = s.stack := rfl
@[simp] theorem State.withPc_dt (x : Word) : (s.withPc x).dt = s.dt := rfl
@[simp] theorem State.withPc_st (x : Word) : (s.withPc x).st = s.st := rfl
@[simp] theorem State.withPc_disp (x : Word) : (s.withPc x).disp = s.disp := rfl
@[simp] theorem State.withPc_keys (x : Word) : (s.withPc x).keys = s.keys := rfl
@[simp] theorem State.withPc_mem (x : Word) : (s.withPc x).mem = s.mem := rfl
@[simp] theorem State.withPc_rng (x : Word) : (s.withPc x).rng = s.rng := rfl
@[simp] theorem State.withPc_fault (x : Word) : (s.withPc x).fault = s.fault := rfl
@[simp] theorem State.withPc_faultPc (x : Word) : (s.withPc x).faultPc = s.faultPc := rfl
@[simp] theorem State.withPc_faultWord (x : Word) : (s.withPc x).faultWord = s.faultWord := rfl
@[simp] theorem State.withPc_out (x : Word) : (s.withPc x).out = s.out := rfl
@[simp] theorem State.withPc_ticks (x : Word) : (s.withPc x).ticks = s.ticks := rfl
@[simp] theorem State.withPc_draws (x : Word) : (s.withPc x).draws = s.draws := rfl
@[simp] theorem State.withPc_freeCount (x : Word) : (s.withPc x).freeCount = s.freeCount := rfl

@[simp] theorem State.withI_cfg (x : Word) : (s.withI x).cfg = s.cfg := rfl
@[simp] theorem State.withI_v (x : Word) : (s.withI x).v = s.v := rfl
@[simp] theorem State.withI_pc (x : Word) : (s.withI x).pc = s.pc := rfl
@[simp] theorem State.withI_ireg (x : Word) : (s.withI x).ireg = x := rfl
@[simp] theorem State.withI_sp (x : Word) : (s.withI x).sp = s.sp := rfl
@[simp] theorem State.withI_stack (x : Word) : (s.withI x).stack = s.stack := rfl
@[simp] theorem State.withI_dt (x : Word) : (s.withI x).dt = s.dt := rfl
@[simp] theorem State.withI_st (x : Word) : (s.withI x).st = s.st := rfl
@[simp] theorem State.withI_disp (x : Word) : (s.withI x).disp = s.disp := rfl
@[simp] theorem State.withI_keys (x : Word) : (s.withI x).keys = s.keys := rfl
@[simp] theorem State.withI_mem (x : Word) : (s.withI x).mem = s.mem := rfl
@[simp] theorem State.withI_rng (x : Word) : (s.withI x).rng = s.rng := rfl
@[simp] theorem State.withI_fault (x : Word) : (s.withI x).fault = s.fault := rfl
@[simp] theorem State.withI_faultPc (x : Word) : (s.withI x).faultPc = s.faultPc := rfl
@[simp] theorem State.withI_faultWord (x : Word) : (s.withI x).faultWord = s.faultWord := rfl
@[simp] theorem State.withI_out (x : Word) : (s.withI x).out = s.out := rfl
@[simp] theorem State.withI_ticks (x : Word) : (s.withI x).ticks = s.ticks := rfl
@[simp] theorem State.withI_draws (x : Word) : (s.withI x).draws = s.draws := rfl
@[simp] theorem State.withI_freeCount (x : Word) : (s.withI x).freeCount = s.freeCount := rfl

@[simp] theorem State.withSp_cfg (x : Fin 17) : (s.withSp x).cfg = s.cfg := rfl
@[simp] theorem State.withSp_v (x : Fin 17) : (s.withSp x).v = s.v := rfl
@[simp] theorem State.withSp_pc (x : Fin 17) : (s.withSp x).pc = s.pc := rfl
@[simp] theorem State.withSp_ireg (x : Fin 17) : (s.withSp x).ireg = s.ireg := rfl
@[simp] theorem State.withSp_sp (x : Fin 17) : (s.withSp x).sp = x := rfl
@[simp] theorem State.withSp_stack (x : Fin 17) : (s.withSp x).stack = s.stack := rfl
@[simp] theorem State.withSp_dt (x : Fin 17) : (s.withSp x).dt = s.dt := rfl
@[simp] theorem State.withSp_st (x : Fin 17) : (s.withSp x).st = s.st := rfl
@[simp] theorem State.withSp_disp (x : Fin 17) : (s.withSp x).disp = s.disp := rfl
@[simp] theorem State.withSp_keys (x : Fin 17) : (s.withSp x).keys = s.keys := rfl
@[simp] theorem State.withSp_mem (x : Fin 17) : (s.withSp x).mem = s.mem := rfl
@[simp] theorem State.withSp_rng (x : Fin 17) : (s.withSp x).rng = s.rng := rfl
@[simp] theorem State.withSp_fault (x : Fin 17) : (s.withSp x).fault = s.fault := rfl
@[simp] theorem State.withSp_faultPc (x : Fin 17) : (s.withSp x).faultPc = s.faultPc := rfl
@[simp] theorem State.withSp_faultWord (x : Fin 17) : (s.withSp x).faultWord = s.faultWord := rfl
@[simp] theorem State.withSp_out (x : Fin 17) : (s.withSp x).out = s.out := rfl
@[simp] theorem State.withSp_ticks (x : Fin 17) : (s.withSp x).ticks = s.ticks := rfl
@[simp] theorem State.withSp_draws (x : Fin 17) : (s.withSp x).draws = s.draws := rfl
@[simp] theorem State.withSp_freeCount (x : Fin 17) : (s.withSp x).freeCount = s.freeCount := rfl

@[simp] theorem State.withStack_cfg (x : Vector Word 16) : (s.withStack x).cfg = s.cfg := rfl
@[simp] theorem State.withStack_v (x : Vector Word 16) : (s.withStack x).v = s.v := rfl
@[simp] theorem State.withStack_pc (x : Vector Word 16) : (s.withStack x).pc = s.pc := rfl
@[simp] theorem State.withStack_ireg (x : Vector Word 16) : (s.withStack x).ireg = s.ireg := rfl
@[simp] theorem State.withStack_sp (x : Vector Word 16) : (s.withStack x).sp = s.sp := rfl
@[simp] theorem State.withStack_stack (x : Vector Word 16) : (s.withStack x).stack = x := rfl
@[simp] theorem State.withStack_dt (x : Vector Word 16) : (s.withStack x).dt = s.dt := rfl
@[simp] theorem State.withStack_st (x : Vector Word 16) : (s.withStack x).st = s.st := rfl
@[simp] theorem State.withStack_disp (x : Vector Word 16) : (s.withStack x).disp = s.disp := rfl
@[simp] theorem State.withStack_keys (x : Vector Word 16) : (s.withStack x).keys = s.keys := rfl
@[simp] theorem State.withStack_mem (x : Vector Word 16) : (s.withStack x).mem = s.mem := rfl
@[simp] theorem State.withStack_rng (x : Vector Word 16) : (s.withStack x).rng = s.rng := rfl
@[simp] theorem State.withStack_fault (x : Vector Word 16) : (s.withStack x).fault = s.fault := rfl
@[simp] theorem State.withStack_faultPc (x : Vector Word 16) : (s.withStack x).faultPc = s.faultPc := rfl
@[simp] theorem State.withStack_faultWord (x : Vector Word 16) : (s.withStack x).faultWord = s.faultWord := rfl
@[simp] theorem State.withStack_out (x : Vector Word 16) : (s.withStack x).out = s.out := rfl
@[simp] theorem State.withStack_ticks (x : Vector Word 16) : (s.withStack x).ticks = s.ticks := rfl
@[simp] theorem State.withStack_draws (x : Vector Word 16) : (s.withStack x).draws = s.draws := rfl
@[simp] theorem State.withStack_freeCount (x : Vector Word 16) : (s.withStack x).freeCount = s.freeCount := rfl

@[simp] theorem State.withDt_cfg (x : Byte) : (s.withDt x).cfg = s.cfg := rfl
@[simp] theorem State.withDt_v (x : Byte) : (s.withDt x).v = s.v := rfl
@[simp] theorem State.withDt_pc (x : Byte) : (s.withDt x).pc = s.pc := rfl
@[simp] theorem State.withDt_ireg (x : Byte) : (s.withDt x).ireg = s.ireg := rfl
@[simp] theorem State.withDt_sp (x : Byte) : (s.withDt x).sp = s.sp := rfl
@[simp] theorem State.withDt_stack (x : Byte) : (s.withDt x).stack = s.stack := rfl
@[simp] theorem State.withDt_dt (x : Byte) : (s.withDt x).dt = x := rfl
@[simp] theorem State.withDt_st (x : Byte) : (s.withDt x).st = s.st := rfl
@[simp] theorem State.withDt_disp (x : Byte) : (s.withDt x).disp = s.disp := rfl
@[simp] theorem State.withDt_keys (x : Byte) : (s.withDt x).keys = s.keys := rfl
@[simp] theorem State.withDt_mem (x : Byte) : (s.withDt x).mem = s.mem := rfl
@[simp] theorem State.withDt_rng (x : Byte) : (s.withDt x).rng = s.rng := rfl
@[simp] theorem State.withDt_fault (x : Byte) : (s.withDt x).fault = s.fault := rfl
@[simp] theorem State.withDt_faultPc (x : Byte) : (s.withDt x).faultPc = s.faultPc := rfl
@[simp] theorem State.withDt_faultWord (x : Byte) : (s.withDt x).faultWord = s.faultWord := rfl
@[simp] theorem State.withDt_out (x : Byte) : (s.withDt x).out = s.out := rfl
@[simp] theorem State.withDt_ticks (x : Byte) : (s.withDt x).ticks = s.ticks := rfl
@[simp] theorem State.withDt_draws (x : Byte) : (s.withDt x).draws = s.draws := rfl
@[simp] theorem State.withDt_freeCount (x : Byte) : (s.withDt x).freeCount = s.freeCount := rfl

@[simp] theorem State.withSt_cfg (x : Byte) : (s.withSt x).cfg = s.cfg := rfl
@[simp] theorem State.withSt_v (x : Byte) : (s.withSt x).v = s.v := rfl
@[simp] theorem State.withSt_pc (x : Byte) : (s.withSt x).pc = s.pc := rfl
@[simp] theorem State.withSt_ireg (x : Byte) : (s.withSt x).ireg = s.ireg := rfl
@[simp] theorem State.withSt_sp (x : Byte) : (s.withSt x).sp = s.sp := rfl
@[simp] theorem State.withSt_stack (x : Byte) : (s.withSt x).stack = s.stack := rfl
@[simp] theorem State.withSt_dt (x : Byte) : (s.withSt x).dt = s.dt := rfl
@[simp] theorem State.withSt_st (x : Byte) : (s.withSt x).st = x := rfl
@[simp] theorem State.withSt_disp (x : Byte) : (s.withSt x).disp = s.disp := rfl
@[simp] theorem State.withSt_keys (x : Byte) : (s.withSt x).keys = s.keys := rfl
@[simp] theorem State.withSt_mem (x : Byte) : (s.withSt x).mem = s.mem := rfl
@[simp] theorem State.withSt_rng (x : Byte) : (s.withSt x).rng = s.rng := rfl
@[simp] theorem State.withSt_fault (x : Byte) : (s.withSt x).fault = s.fault := rfl
@[simp] theorem State.withSt_faultPc (x : Byte) : (s.withSt x).faultPc = s.faultPc := rfl
@[simp] theorem State.withSt_faultWord (x : Byte) : (s.withSt x).faultWord = s.faultWord := rfl
@[simp] theorem State.withSt_out (x : Byte) : (s.withSt x).out = s.out := rfl
@[simp] theorem State.withSt_ticks (x : Byte) : (s.withSt x).ticks = s.ticks := rfl
@[simp] theorem State.withSt_draws (x : Byte) : (s.withSt x).draws = s.draws := rfl
@[simp] theorem State.withSt_freeCount (x : Byte) : (s.withSt x).freeCount = s.freeCount := rfl

@[simp] theorem State.withDisp_cfg (x : Display) : (s.withDisp x).cfg = s.cfg := rfl
@[simp] theorem State.withDisp_v (x : Display) : (s.withDisp x).v = s.v := rfl
@[simp] theorem State.withDisp_pc (x : Display) : (s.withDisp x).pc = s.pc := rfl
@[simp] theorem State.withDisp_ireg (x : Display) : (s.withDisp x).ireg = s.ireg := rfl
@[simp] theorem State.withDisp_sp (x : Display) : (s.withDisp x).sp = s.sp := rfl
@[simp] theorem State.withDisp_stack (x : Display) : (s.withDisp x).stack = s.stack := rfl
@[simp] theorem State.withDisp_dt (x : Display) : (s.withDisp x).dt = s.dt := rfl
@[simp] theorem State.withDisp_st (x : Display) : (s.withDisp x).st = s.st := rfl
@[simp] theorem State.withDisp_disp (x : Display) : (s.withDisp x).disp = x := rfl
@[simp] theorem State.withDisp_keys (x : Display) : (s.withDisp x).keys = s.keys := rfl
@[simp] theorem State.withDisp_mem (x : Display) : (s.withDisp x).mem = s.mem := rfl
@[simp] theorem State.withDisp_rng (x : Display) : (s.withDisp x).rng = s.rng := rfl
@[simp] theorem State.withDisp_fault (x : Display) : (s.withDisp x).fault = s.fault := rfl
@[simp] theorem State.withDisp_faultPc (x : Display) : (s.withDisp x).faultPc = s.faultPc := rfl
@[simp] theorem State.withDisp_faultWord (x : Display) : (s.withDisp x).faultWord = s.faultWord := rfl
@[simp] theorem State.withDisp_out (x : Display) : (s.withDisp x).out = s.out := rfl
@[simp] theorem State.withDisp_ticks (x : Display) : (s.withDisp x).ticks = s.ticks := rfl
@[simp] theorem State.withDisp_draws (x : Display) : (s.withDisp x).draws = s.draws := rfl
@[simp] theorem State.withDisp_freeCount (x : Display) : (s.withDisp x).freeCount = s.freeCount := rfl

@[simp] theorem State.withKeys_cfg (x : Vector Bool 16) : (s.withKeys x).cfg = s.cfg := rfl
@[simp] theorem State.withKeys_v (x : Vector Bool 16) : (s.withKeys x).v = s.v := rfl
@[simp] theorem State.withKeys_pc (x : Vector Bool 16) : (s.withKeys x).pc = s.pc := rfl
@[simp] theorem State.withKeys_ireg (x : Vector Bool 16) : (s.withKeys x).ireg = s.ireg := rfl
@[simp] theorem State.withKeys_sp (x : Vector Bool 16) : (s.withKeys x).sp = s.sp := rfl
@[simp] theorem State.withKeys_stack (x : Vector Bool 16) : (s.withKeys x).stack = s.stack := rfl
@[simp] theorem State.withKeys_dt (x : Vector Bool 16) : (s.withKeys x).dt = s.dt := rfl
@[simp] theorem State.withKeys_st (x : Vector Bool 16) : (s.withKeys x).st = s.st := rfl
@[simp] theorem State.withKeys_disp (x : Vector Bool 16) : (s.withKeys x).disp = s.disp := rfl
@[simp] theorem State.withKeys_keys (x : Vector Bool 16) : (s.withKeys x).keys = x := rfl
@[simp] theorem State.withKeys_mem (x : Vector Bool 16) : (s.withKeys x).mem = s.mem := rfl
@[simp] theorem State.withKeys_rng (x : Vector Bool 16) : (s.withKeys x).rng = s.rng := rfl
@[simp] theorem State.withKeys_fault (x : Vector Bool 16) : (s.withKeys x).fault = s.fault := rfl
@[simp] theorem State.withKeys_faultPc (x : Vector Bool 16) : (s.withKeys x).faultPc = s.faultPc := rfl
@[simp] theorem State.withKeys_faultWord (x : Vector Bool 16) : (s.withKeys x).faultWord = s.faultWord := rfl
@[simp] theorem State.withKeys_out (x : Vector Bool 16) : (s.withKeys x).out = s.out := rfl
@[simp] theorem State.withKeys_ticks (x : Vector Bool 16) : (s.withKeys x).ticks = s.ticks := rfl
@[simp] theorem State.withKeys_draws (x : Vector Bool 16) : (s.withKeys x).draws = s.draws := rfl
@[simp] theorem State.withKeys_freeCount (x : Vector Bool 16) : (s.withKeys x).freeCount = s.freeCount := rfl

@[simp] theorem State.withMem_cfg (x : Memory) : (s.withMem x).cfg = s.cfg := rfl
@[simp] theorem State.withMem_v (x : Memory) : (s.withMem x).v = s.v := rfl
@[simp] theorem State.withMem_pc (x : Memory) : (s.withMem x).pc = s.pc := rfl
@[simp] theorem State.withMem_ireg (x : Memory) : (s.withMem x).ireg = s.ireg := rfl
@[simp] theorem State.withMem_sp (x : Memory) : (s.withMem x).sp = s.sp := rfl
@[simp] theorem State.withMem_stack (x : Memory) : (s.withMem x).stack = s.stack := rfl
@[simp] theorem State.withMem_dt (x : Memory) : (s.withMem x).dt = s.dt := rfl
@[simp] theorem State.withMem_st (x : Memory) : (s.withMem x).st = s.st := rfl
@[simp] theorem State.withMem_disp (x : Memory) : (s.withMem x).disp = s.disp := rfl
@[simp] theorem State.withMem_keys (x : Memory) : (s.withMem x).keys = s.keys := rfl
@[simp] theorem State.withMem_mem (x : Memory) : (s.withMem x).mem = x := rfl
@[simp] theorem State.withMem_rng (x : Memory) : (s.withMem x).rng = s.rng := rfl
@[simp] theorem State.withMem_fault (x : Memory) : (s.withMem x).fault = s.fault := rfl
@[simp] theorem State.withMem_faultPc (x : Memory) : (s.withMem x).faultPc = s.faultPc := rfl
@[simp] theorem State.withMem_faultWord (x : Memory) : (s.withMem x).faultWord = s.faultWord := rfl
@[simp] theorem State.withMem_out (x : Memory) : (s.withMem x).out = s.out := rfl
@[simp] theorem State.withMem_ticks (x : Memory) : (s.withMem x).ticks = s.ticks := rfl
@[simp] theorem State.withMem_draws (x : Memory) : (s.withMem x).draws = s.draws := rfl
@[simp] theorem State.withMem_freeCount (x : Memory) : (s.withMem x).freeCount = s.freeCount := rfl

@[simp] theorem State.withRng_cfg (x : BitVec 32) : (s.withRng x).cfg = s.cfg := rfl
@[simp] theorem State.withRng_v (x : BitVec 32) : (s.withRng x).v = s.v := rfl
@[simp] theorem State.withRng_pc (x : BitVec 32) : (s.withRng x).pc = s.pc := rfl
@[simp] theorem State.withRng_ireg (x : BitVec 32) : (s.withRng x).ireg = s.ireg := rfl
@[simp] theorem State.withRng_sp (x : BitVec 32) : (s.withRng x).sp = s.sp := rfl
@[simp] theorem State.withRng_stack (x : BitVec 32) : (s.withRng x).stack = s.stack := rfl
@[simp] theorem State.withRng_dt (x : BitVec 32) : (s.withRng x).dt = s.dt := rfl
@[simp] theorem State.withRng_st (x : BitVec 32) : (s.withRng x).st = s.st := rfl
@[simp] theorem State.withRng_disp (x : BitVec 32) : (s.withRng x).disp = s.disp := rfl
@[simp] theorem State.withRng_keys (x : BitVec 32) : (s.withRng x).keys = s.keys := rfl
@[simp] theorem State.withRng_mem (x : BitVec 32) : (s.withRng x).mem = s.mem := rfl
@[simp] theorem State.withRng_rng (x : BitVec 32) : (s.withRng x).rng = x := rfl
@[simp] theorem State.withRng_fault (x : BitVec 32) : (s.withRng x).fault = s.fault := rfl
@[simp] theorem State.withRng_faultPc (x : BitVec 32) : (s.withRng x).faultPc = s.faultPc := rfl
@[simp] theorem State.withRng_faultWord (x : BitVec 32) : (s.withRng x).faultWord = s.faultWord := rfl
@[simp] theorem State.withRng_out (x : BitVec 32) : (s.withRng x).out = s.out := rfl
@[simp] theorem State.withRng_ticks (x : BitVec 32) : (s.withRng x).ticks = s.ticks := rfl
@[simp] theorem State.withRng_draws (x : BitVec 32) : (s.withRng x).draws = s.draws := rfl
@[simp] theorem State.withRng_freeCount (x : BitVec 32) : (s.withRng x).freeCount = s.freeCount := rfl

@[simp] theorem State.withFault_cfg (c : FaultCause) (p w : Word) : (s.withFault c p w).cfg = s.cfg := rfl
@[simp] theorem State.withFault_v (c : FaultCause) (p w : Word) : (s.withFault c p w).v = s.v := rfl
@[simp] theorem State.withFault_pc (c : FaultCause) (p w : Word) : (s.withFault c p w).pc = s.pc := rfl
@[simp] theorem State.withFault_ireg (c : FaultCause) (p w : Word) : (s.withFault c p w).ireg = s.ireg := rfl
@[simp] theorem State.withFault_sp (c : FaultCause) (p w : Word) : (s.withFault c p w).sp = s.sp := rfl
@[simp] theorem State.withFault_stack (c : FaultCause) (p w : Word) : (s.withFault c p w).stack = s.stack := rfl
@[simp] theorem State.withFault_dt (c : FaultCause) (p w : Word) : (s.withFault c p w).dt = s.dt := rfl
@[simp] theorem State.withFault_st (c : FaultCause) (p w : Word) : (s.withFault c p w).st = s.st := rfl
@[simp] theorem State.withFault_disp (c : FaultCause) (p w : Word) : (s.withFault c p w).disp = s.disp := rfl
@[simp] theorem State.withFault_keys (c : FaultCause) (p w : Word) : (s.withFault c p w).keys = s.keys := rfl
@[simp] theorem State.withFault_mem (c : FaultCause) (p w : Word) : (s.withFault c p w).mem = s.mem := rfl
@[simp] theorem State.withFault_rng (c : FaultCause) (p w : Word) : (s.withFault c p w).rng = s.rng := rfl
@[simp] theorem State.withFault_fault (c : FaultCause) (p w : Word) : (s.withFault c p w).fault = c := rfl
@[simp] theorem State.withFault_faultPc (c : FaultCause) (p w : Word) : (s.withFault c p w).faultPc = p := rfl
@[simp] theorem State.withFault_faultWord (c : FaultCause) (p w : Word) : (s.withFault c p w).faultWord = w := rfl
@[simp] theorem State.withFault_out (c : FaultCause) (p w : Word) : (s.withFault c p w).out = s.out := rfl
@[simp] theorem State.withFault_ticks (c : FaultCause) (p w : Word) : (s.withFault c p w).ticks = s.ticks := rfl
@[simp] theorem State.withFault_draws (c : FaultCause) (p w : Word) : (s.withFault c p w).draws = s.draws := rfl
@[simp] theorem State.withFault_freeCount (c : FaultCause) (p w : Word) : (s.withFault c p w).freeCount = s.freeCount := rfl

@[simp] theorem State.withOut_cfg (x : Outputs) : (s.withOut x).cfg = s.cfg := rfl
@[simp] theorem State.withOut_v (x : Outputs) : (s.withOut x).v = s.v := rfl
@[simp] theorem State.withOut_pc (x : Outputs) : (s.withOut x).pc = s.pc := rfl
@[simp] theorem State.withOut_ireg (x : Outputs) : (s.withOut x).ireg = s.ireg := rfl
@[simp] theorem State.withOut_sp (x : Outputs) : (s.withOut x).sp = s.sp := rfl
@[simp] theorem State.withOut_stack (x : Outputs) : (s.withOut x).stack = s.stack := rfl
@[simp] theorem State.withOut_dt (x : Outputs) : (s.withOut x).dt = s.dt := rfl
@[simp] theorem State.withOut_st (x : Outputs) : (s.withOut x).st = s.st := rfl
@[simp] theorem State.withOut_disp (x : Outputs) : (s.withOut x).disp = s.disp := rfl
@[simp] theorem State.withOut_keys (x : Outputs) : (s.withOut x).keys = s.keys := rfl
@[simp] theorem State.withOut_mem (x : Outputs) : (s.withOut x).mem = s.mem := rfl
@[simp] theorem State.withOut_rng (x : Outputs) : (s.withOut x).rng = s.rng := rfl
@[simp] theorem State.withOut_fault (x : Outputs) : (s.withOut x).fault = s.fault := rfl
@[simp] theorem State.withOut_faultPc (x : Outputs) : (s.withOut x).faultPc = s.faultPc := rfl
@[simp] theorem State.withOut_faultWord (x : Outputs) : (s.withOut x).faultWord = s.faultWord := rfl
@[simp] theorem State.withOut_out (x : Outputs) : (s.withOut x).out = x := rfl
@[simp] theorem State.withOut_ticks (x : Outputs) : (s.withOut x).ticks = s.ticks := rfl
@[simp] theorem State.withOut_draws (x : Outputs) : (s.withOut x).draws = s.draws := rfl
@[simp] theorem State.withOut_freeCount (x : Outputs) : (s.withOut x).freeCount = s.freeCount := rfl

@[simp] theorem State.withTicks_cfg (x : List Bool) : (s.withTicks x).cfg = s.cfg := rfl
@[simp] theorem State.withTicks_v (x : List Bool) : (s.withTicks x).v = s.v := rfl
@[simp] theorem State.withTicks_pc (x : List Bool) : (s.withTicks x).pc = s.pc := rfl
@[simp] theorem State.withTicks_ireg (x : List Bool) : (s.withTicks x).ireg = s.ireg := rfl
@[simp] theorem State.withTicks_sp (x : List Bool) : (s.withTicks x).sp = s.sp := rfl
@[simp] theorem State.withTicks_stack (x : List Bool) : (s.withTicks x).stack = s.stack := rfl
@[simp] theorem State.withTicks_dt (x : List Bool) : (s.withTicks x).dt = s.dt := rfl
@[simp] theorem State.withTicks_st (x : List Bool) : (s.withTicks x).st = s.st := rfl
@[simp] theorem State.withTicks_disp (x : List Bool) : (s.withTicks x).disp = s.disp := rfl
@[simp] theorem State.withTicks_keys (x : List Bool) : (s.withTicks x).keys = s.keys := rfl
@[simp] theorem State.withTicks_mem (x : List Bool) : (s.withTicks x).mem = s.mem := rfl
@[simp] theorem State.withTicks_rng (x : List Bool) : (s.withTicks x).rng = s.rng := rfl
@[simp] theorem State.withTicks_fault (x : List Bool) : (s.withTicks x).fault = s.fault := rfl
@[simp] theorem State.withTicks_faultPc (x : List Bool) : (s.withTicks x).faultPc = s.faultPc := rfl
@[simp] theorem State.withTicks_faultWord (x : List Bool) : (s.withTicks x).faultWord = s.faultWord := rfl
@[simp] theorem State.withTicks_out (x : List Bool) : (s.withTicks x).out = s.out := rfl
@[simp] theorem State.withTicks_ticks (x : List Bool) : (s.withTicks x).ticks = x := rfl
@[simp] theorem State.withTicks_draws (x : List Bool) : (s.withTicks x).draws = s.draws := rfl
@[simp] theorem State.withTicks_freeCount (x : List Bool) : (s.withTicks x).freeCount = s.freeCount := rfl

@[simp] theorem State.withDraws_cfg (x : List Byte) : (s.withDraws x).cfg = s.cfg := rfl
@[simp] theorem State.withDraws_v (x : List Byte) : (s.withDraws x).v = s.v := rfl
@[simp] theorem State.withDraws_pc (x : List Byte) : (s.withDraws x).pc = s.pc := rfl
@[simp] theorem State.withDraws_ireg (x : List Byte) : (s.withDraws x).ireg = s.ireg := rfl
@[simp] theorem State.withDraws_sp (x : List Byte) : (s.withDraws x).sp = s.sp := rfl
@[simp] theorem State.withDraws_stack (x : List Byte) : (s.withDraws x).stack = s.stack := rfl
@[simp] theorem State.withDraws_dt (x : List Byte) : (s.withDraws x).dt = s.dt := rfl
@[simp] theorem State.withDraws_st (x : List Byte) : (s.withDraws x).st = s.st := rfl
@[simp] theorem State.withDraws_disp (x : List Byte) : (s.withDraws x).disp = s.disp := rfl
@[simp] theorem State.withDraws_keys (x : List Byte) : (s.withDraws x).keys = s.keys := rfl
@[simp] theorem State.withDraws_mem (x : List Byte) : (s.withDraws x).mem = s.mem := rfl
@[simp] theorem State.withDraws_rng (x : List Byte) : (s.withDraws x).rng = s.rng := rfl
@[simp] theorem State.withDraws_fault (x : List Byte) : (s.withDraws x).fault = s.fault := rfl
@[simp] theorem State.withDraws_faultPc (x : List Byte) : (s.withDraws x).faultPc = s.faultPc := rfl
@[simp] theorem State.withDraws_faultWord (x : List Byte) : (s.withDraws x).faultWord = s.faultWord := rfl
@[simp] theorem State.withDraws_out (x : List Byte) : (s.withDraws x).out = s.out := rfl
@[simp] theorem State.withDraws_ticks (x : List Byte) : (s.withDraws x).ticks = s.ticks := rfl
@[simp] theorem State.withDraws_draws (x : List Byte) : (s.withDraws x).draws = x := rfl
@[simp] theorem State.withDraws_freeCount (x : List Byte) : (s.withDraws x).freeCount = s.freeCount := rfl

@[simp] theorem State.withFreeCount_cfg (x : Nat) : (s.withFreeCount x).cfg = s.cfg := rfl
@[simp] theorem State.withFreeCount_v (x : Nat) : (s.withFreeCount x).v = s.v := rfl
@[simp] theorem State.withFreeCount_pc (x : Nat) : (s.withFreeCount x).pc = s.pc := rfl
@[simp] theorem State.withFreeCount_ireg (x : Nat) : (s.withFreeCount x).ireg = s.ireg := rfl
@[simp] theorem State.withFreeCount_sp (x : Nat) : (s.withFreeCount x).sp = s.sp := rfl
@[simp] theorem State.withFreeCount_stack (x : Nat) : (s.withFreeCount x).stack = s.stack := rfl
@[simp] theorem State.withFreeCount_dt (x : Nat) : (s.withFreeCount x).dt = s.dt := rfl
@[simp] theorem State.withFreeCount_st (x : Nat) : (s.withFreeCount x).st = s.st := rfl
@[simp] theorem State.withFreeCount_disp (x : Nat) : (s.withFreeCount x).disp = s.disp := rfl
@[simp] theorem State.withFreeCount_keys (x : Nat) : (s.withFreeCount x).keys = s.keys := rfl
@[simp] theorem State.withFreeCount_mem (x : Nat) : (s.withFreeCount x).mem = s.mem := rfl
@[simp] theorem State.withFreeCount_rng (x : Nat) : (s.withFreeCount x).rng = s.rng := rfl
@[simp] theorem State.withFreeCount_fault (x : Nat) : (s.withFreeCount x).fault = s.fault := rfl
@[simp] theorem State.withFreeCount_faultPc (x : Nat) : (s.withFreeCount x).faultPc = s.faultPc := rfl
@[simp] theorem State.withFreeCount_faultWord (x : Nat) : (s.withFreeCount x).faultWord = s.faultWord := rfl
@[simp] theorem State.withFreeCount_out (x : Nat) : (s.withFreeCount x).out = s.out := rfl
@[simp] theorem State.withFreeCount_ticks (x : Nat) : (s.withFreeCount x).ticks = s.ticks := rfl
@[simp] theorem State.withFreeCount_draws (x : Nat) : (s.withFreeCount x).draws = s.draws := rfl
@[simp] theorem State.withFreeCount_freeCount (x : Nat) : (s.withFreeCount x).freeCount = x := rfl

end Sys2Proof.Machine
end

