-- ==== Sys2Proof/Laws/Memory.lean ====
section
/-! SUPPORT. Memory: a read after a write, and every write keeps the canonical form. -/

namespace Sys2Proof.Machine

variable {c : Config}

theorem Memory.read_consCell (m : Memory) (a a' : Nat) (b : Byte)
    (h : Memory.read c m a = resetByte c a) :
    Memory.read c (Memory.consCell c a b m) a' = if a' = a then b else Memory.read c m a' := by
  unfold Memory.consCell
  split
  · rename_i hb
    by_cases e : a' = a
    · subst e; simp [h, hb]
    · simp [e]
  · rfl

/-- An address below every listed one reads as its reset content. -/
theorem Memory.read_of_lt (m : Memory) (a : Nat) (h : ∀ p ∈ m, a < p.1) :
    Memory.read c m a = resetByte c a := by
  induction m with
  | nil => rfl
  | cons p m ih =>
    have hp := h p (by simp)
    simp only [Memory.read]
    rw [if_neg (by omega)]
    exact ih fun q hq => h q (by simp [hq])

/-- A read after a write: the byte written, or what was there before. -/
theorem Memory.read_write (m : Memory) (hm : m.Pairwise (fun p q => p.1 < q.1)) (a a' : Nat) (b : Byte) :
    Memory.read c (Memory.write c m a b) a' = if a' = a then b else Memory.read c m a' := by
  induction m with
  | nil => exact Memory.read_consCell [] a a' b rfl
  | cons p m ih =>
    obtain ⟨hp, hm'⟩ := List.pairwise_cons.mp hm
    obtain ⟨k, v⟩ := p
    simp only [Memory.write]
    split
    · rename_i h
      refine Memory.read_consCell _ a a' b (Memory.read_of_lt _ _ ?_)
      intro q hq
      rcases List.mem_cons.mp hq with rfl | hq
      · exact h
      · exact Nat.lt_trans h (hp q hq)
    · split
      · rename_i h; subst h
        rw [Memory.read_consCell m a a' b (Memory.read_of_lt _ _ hp)]
        simp only [Memory.read]
        split <;> rfl
      · rename_i h
        simp only [Memory.read, ih hm']
        by_cases e : a' = k
        · have : a' ≠ a := by omega
          simp [e]; omega
        · simp [e]

theorem Memory.mem_write (m : Memory) (a : Nat) (b : Byte) (p : Host.Cell)
    (h : p ∈ Memory.write c m a b) : p ∈ m ∨ (p = (a, b) ∧ b ≠ resetByte c a) := by
  have cons : ∀ n : Memory, p ∈ Memory.consCell c a b n → p ∈ n ∨ (p = (a, b) ∧ b ≠ resetByte c a) := by
    intro n hn
    unfold Memory.consCell at hn
    split at hn
    · exact .inl hn
    · rename_i hb
      rcases List.mem_cons.mp hn with rfl | hn
      · exact .inr ⟨rfl, hb⟩
      · exact .inl hn
  induction m with
  | nil => exact cons [] h
  | cons q m ih =>
    simp only [Memory.write] at h
    split at h
    · exact cons _ h
    · split at h
      · rcases cons _ h with h | h
        · exact .inl (List.mem_cons_of_mem _ h)
        · exact .inr h
      · rcases List.mem_cons.mp h with rfl | h
        · exact .inl (by simp)
        · rcases ih h with h | h
          · exact .inl (List.mem_cons_of_mem _ h)
          · exact .inr h

theorem Memory.pairwise_write (m : Memory) (hm : m.Pairwise (fun p q => p.1 < q.1)) (a : Nat) (b : Byte) :
    (Memory.write c m a b).Pairwise (fun p q => p.1 < q.1) := by
  have cons : ∀ n : Memory, n.Pairwise (fun p q => p.1 < q.1) → (∀ q ∈ n, a < q.1) →
      (Memory.consCell c a b n).Pairwise (fun p q => p.1 < q.1) := by
    intro n hn ha
    unfold Memory.consCell
    split
    · exact hn
    · exact List.pairwise_cons.mpr ⟨ha, hn⟩
  induction m with
  | nil => exact cons [] (by simp) (by simp)
  | cons p m ih =>
    obtain ⟨hp, hm'⟩ := List.pairwise_cons.mp hm
    simp only [Memory.write]
    split
    · rename_i h
      refine cons _ hm ?_
      intro q hq
      rcases List.mem_cons.mp hq with rfl | hq
      · exact h
      · exact Nat.lt_trans h (hp q hq)
    · split
      · rename_i h; subst h; exact cons _ hm' hp
      · rename_i h1 h2
        refine List.pairwise_cons.mpr ⟨?_, ih hm'⟩
        intro q hq
        rcases Memory.mem_write m a b q hq with hq | ⟨rfl, -⟩
        · exact hp q hq
        · show p.1 < a
          omega

/-- A write inside MEM_SIZE keeps the canonical form. -/
theorem Memory.wf_write (m : Memory) (hm : Memory.wf c m) (a : Nat) (ha : a < c.memSize) (b : Byte) :
    Memory.wf c (Memory.write c m a b) := by
  refine ⟨Memory.pairwise_write m hm.1 a b, fun p hp => ?_⟩
  rcases Memory.mem_write m a b p hp with hp | ⟨rfl, hb⟩
  · exact hm.2 p hp
  · exact ⟨hb, ha⟩

/-- Equal contents are equal data: a canonical memory is determined by what it reads. -/
theorem Memory.ext_read (m n : Memory) (hm : Memory.wf c m) (hn : Memory.wf c n)
    (h : ∀ a, Memory.read c m a = Memory.read c n a) : m = n := by
  induction m generalizing n with
  | nil =>
    cases n with
    | nil => rfl
    | cons q n =>
      have := h q.1
      simp only [Memory.read] at this
      exact absurd this.symm (hn.2 q (by simp)).1
  | cons p m ih =>
    obtain ⟨hp, hm'⟩ := List.pairwise_cons.mp hm.1
    cases n with
    | nil =>
      have := h p.1
      simp only [Memory.read] at this
      exact absurd this (hm.2 p (by simp)).1
    | cons q n =>
      obtain ⟨hq, hn'⟩ := List.pairwise_cons.mp hn.1
      have key : ∀ (p q : Host.Cell) (m n : Memory), Memory.read c (p :: m) p.1 = Memory.read c (q :: n) p.1 →
          p.2 ≠ resetByte c p.1 → (∀ r ∈ n, q.1 < r.1) → q.1 ≤ p.1 := by
        intro p q m n he hb hn
        by_contra hlt
        have : Memory.read c (q :: n) p.1 = resetByte c p.1 := by
          apply Memory.read_of_lt
          intro r hr
          rcases List.mem_cons.mp hr with rfl | hr
          · omega
          · have := hn r hr; omega
        rw [this] at he
        exact hb (by simpa [Memory.read] using he)
      have e1 : p.1 = q.1 := by
        have h1 := key p q m n (h p.1) (hm.2 p (by simp)).1 hq
        have h2 := key q p n m (h q.1).symm (hn.2 q (by simp)).1 hp
        omega
      have e2 : p.2 = q.2 := by
        have := h p.1
        simpa [Memory.read, e1] using this
      have e : p = q := Prod.ext e1 e2
      subst e
      congr 1
      refine ih n ⟨hm', fun r hr => hm.2 r (by simp [hr])⟩ ⟨hn', fun r hr => hn.2 r (by simp [hr])⟩ ?_
      intro a
      by_cases ha : a = p.1
      · subst ha
        rw [Memory.read_of_lt m _ hp, Memory.read_of_lt n _ hq]
      · simpa [Memory.read, ha] using h a

/-! ### The state's reads and writes -/

theorem State.readByte_writeByte (s : State) (hm : Memory.wf s.cfg s.mem) (a a' : Nat) (b : Byte) :
    (s.writeByte a b).readByte a' = if a' = a then b else s.readByte a' :=
  Memory.read_write s.mem hm.1 a a' b

theorem State.wf_writeByte (s : State) (hm : Memory.wf s.cfg s.mem) (a : Nat) (ha : a < s.cfg.memSize)
    (b : Byte) : Memory.wf s.cfg (s.writeByte a b).mem :=
  Memory.wf_write s.mem hm a ha b

/-- Consecutive writes change nothing but MEM. -/
theorem State.writeBytes_eq (s : State) (a : Nat) (bs : List Byte) :
    s.writeBytes a bs = s.withMem (s.writeBytes a bs).mem := by
  induction bs generalizing s a with
  | nil => rfl
  | cons b bs ih => exact (ih (s.writeByte a b) (a + 1)).trans rfl

@[simp] theorem State.writeBytes_cfg (s : State) (a : Nat) (bs : List Byte) :
    (s.writeBytes a bs).cfg = s.cfg := by rw [State.writeBytes_eq]; rfl

/-- Consecutive writes inside MEM_SIZE keep the canonical form. -/
theorem State.wf_writeBytes (s : State) (hm : Memory.wf s.cfg s.mem) (a : Nat) (bs : List Byte)
    (ha : a + bs.length ≤ s.cfg.memSize) : Memory.wf s.cfg (s.writeBytes a bs).mem := by
  induction bs generalizing s a with
  | nil => exact hm
  | cons b bs ih =>
    simp only [List.length_cons] at ha
    exact ih (s.writeByte a b) (State.wf_writeByte s hm a (by omega) b) (a + 1)
      (by show a + 1 + bs.length ≤ s.cfg.memSize; omega)

/-- A read after consecutive writes: byte `a' - a` of the list inside the stored range, and what was there
before outside it. -/
theorem State.readByte_writeBytes (s : State) (hm : s.mem.Pairwise (fun p q => p.1 < q.1)) (a a' : Nat)
    (bs : List Byte) :
    (s.writeBytes a bs).readByte a' =
      if a ≤ a' then bs.getD (a' - a) (s.readByte a') else s.readByte a' := by
  induction bs generalizing s a with
  | nil => simp [State.writeBytes]
  | cons b bs ih =>
    simp only [State.writeBytes]
    rw [ih (s.writeByte a b) (Memory.pairwise_write s.mem hm a b) (a + 1)]
    have hr : (s.writeByte a b).readByte a' = if a' = a then b else s.readByte a' :=
      Memory.read_write s.mem hm a a' b
    rw [hr]
    by_cases h1 : a' = a
    · subst h1; simp
    · by_cases h2 : a + 1 ≤ a'
      · have h3 : a ≤ a' := by omega
        have h4 : a' - a = (a' - (a + 1)) + 1 := by omega
        simp only [h1, h2, h3, h4, if_true, if_false, List.getD_cons_succ]
      · have h3 : ¬ a ≤ a' := by omega
        simp [h1, h2, h3]

end Sys2Proof.Machine
end

