-- ==== Sys2Proof/Laws/Ops.lean ====
section
/-! SUPPORT. One lemma per shared operation: what it answers and what it leaves alone. -/

namespace Sys2Proof.Machine

/-! ### Registers -/

theorem State.getV_setV (s : State) (r r' : Reg) (b : Byte) :
    (s.setV r b).getV r' = if r' = r then b else s.getV r' := by
  unfold State.getV State.setV
  by_cases h : r' = r
  · subst h; simp
  · have : r.val ≠ r'.val := fun e => h (Fin.ext e.symm)
    simp [h, this]

@[simp] theorem State.getV_setV_same (s : State) (r : Reg) (b : Byte) : (s.setV r b).getV r = b := by
  simp [State.getV_setV]

theorem State.setV_eq (s : State) (r : Reg) (b : Byte) : s.setV r b = s.withV (s.v.set r b) := rfl

theorem State.setVF_eq (s : State) (c : Bool) : s.setVF c = s.setV VF (flagByte c) := rfl

/-- Two register files that read the same are the same. -/
theorem v_ext (u v : Vector Byte 16) (h : ∀ r : Reg, u[r] = v[r]) : u = v :=
  Vector.ext fun i hi => h ⟨i, hi⟩

/-! ### Data addresses -/

/-- The check of n addresses in closed form. -/
theorem State.indirectOk_iff (s : State) (n : Nat) :
    s.indirectOk n = true ↔ n = 0 ∨ s.ireg.toNat + n ≤ s.cfg.memSize := by
  simp only [State.indirectOk, List.all_eq_true, List.mem_range, State.inBounds, decide_eq_true_eq]
  constructor
  · intro h
    by_cases hn : n = 0
    · exact .inl hn
    · right; have := h (n - 1) (by omega); omega
  · rintro (h | h) k hk <;> omega

theorem State.indirectOk_forall (s : State) (n : Nat) :
    s.indirectOk n = true ↔ ∀ k < n, s.ireg.toNat + k < s.cfg.memSize := by
  simp [State.indirectOk, State.inBounds]

@[simp] theorem State.length_indirectBytes (s : State) (n : Nat) : (s.indirectBytes n).length = n := by
  simp [State.indirectBytes]

theorem State.getD_indirectBytes (s : State) (n k : Nat) (hk : k < n) :
    (s.indirectBytes n).getD k 0 = s.readByte (s.ireg.toNat + k) := by
  simp [State.indirectBytes, List.getD_eq_getElem?_getD, hk]

@[simp] theorem State.length_lowRegs (s : State) (x : Reg) : (s.lowRegs x).length = x.val + 1 := by
  simp [State.lowRegs]

theorem State.getD_lowRegs (s : State) (x : Reg) (k : Nat) (hk : k ≤ x.val) (d : Byte) :
    (s.lowRegs x).getD k d = s.v[k]'(by have := x.isLt; omega) := by
  have := x.isLt
  have h1 : k < x.val + 1 := by omega
  simp [State.lowRegs, List.getD_eq_getElem?_getD, h1]

@[simp] theorem length_decimalDigits (b : Byte) : (decimalDigits b).length = 3 := rfl

theorem State.getV_loadRegs (s : State) (x r : Reg) :
    (s.loadRegs x).getV r = if r ≤ x then s.readByte (s.ireg.toNat + r.val) else s.getV r := by
  simp [State.getV, State.loadRegs]

theorem State.advanceI_eq (s : State) (n : Nat) :
    s.advanceI n = s.withI (if s.cfg.quirkLsIncrement then s.ireg + BitVec.ofNat 16 n else s.ireg) := by
  unfold State.advanceI
  split <;> rfl

/-! ### The stack -/

/-- A push fails exactly on a full stack. -/
theorem State.push?_eq_none (s : State) (a : Word) : s.push? a = none ↔ s.sp.val = 16 := by
  have := s.sp.isLt
  have hd : Config.stackDepth = 16 := rfl
  unfold State.push?
  split
  · rename_i h; rw [hd] at h
    exact ⟨fun e => absurd e (by simp), fun e => by omega⟩
  · rename_i h; rw [hd] at h
    exact ⟨fun _ => by omega, fun _ => rfl⟩

theorem State.push?_eq_some (s t : State) (a : Word) (h : s.push? a = some t) :
    ∃ hlt : s.sp.val < 16, t = (s.withStack (s.stack.set s.sp.val a hlt)).withSp ⟨s.sp.val + 1, by omega⟩ := by
  unfold State.push? at h
  split at h
  · rename_i hlt; exact ⟨hlt, (Option.some.inj h).symm⟩
  · exact absurd h (by simp)

/-- A pop fails exactly on an empty stack. -/
theorem State.pop?_eq_none (s : State) : s.pop? = none ↔ s.sp.val = 0 := by
  unfold State.pop?
  split <;> simp <;> omega

theorem State.pop?_eq_some (s t : State) (a : Word) (h : s.pop? = some (a, t)) :
    ∃ hlt : 0 < s.sp.val,
      a = s.stack[s.sp.val - 1]'(by have := s.sp.isLt; omega) ∧
      t = s.withSp ⟨s.sp.val - 1, by have := s.sp.isLt; omega⟩ := by
  unfold State.pop? at h
  split at h
  · rename_i hlt
    have := Option.some.inj h
    exact ⟨hlt, (Prod.mk.inj this).1.symm, (Prod.mk.inj this).2.symm⟩
  · exact absurd h (by simp)

/-! ### The program counter, keys -/

theorem State.skipIf_eq (s : State) (c : Bool) :
    s.skipIf c = s.withPc (if c then s.pc + 2 else s.pc) := by
  cases c <;> rfl

theorem State.keyOf?_eq_none (s : State) (b : Byte) : s.keyOf? b = none ↔ 15 < b.toNat := by
  unfold State.keyOf?
  split <;> simp <;> omega

theorem State.keyOf?_of_lt (s : State) (b : Byte) (h : b.toNat < 16) :
    s.keyOf? b = some s.keys[b.toNat] := by simp [State.keyOf?, h]

theorem State.lowestKey?_eq_none (s : State) : s.lowestKey? = none ↔ ∀ k : Fin 16, s.keys[k] = false := by
  simp [State.lowestKey?, List.find?_eq_none]

/-! ### Fault entry -/

/-- Fault entry as one record: PC back at pc0, the three fault registers, the outputs cleared. -/
theorem State.raiseFault_eq (s : State) (c : FaultCause) (i : Instr) :
    s.raiseFault c i =
      { s with pc := s.pc - 2, fault := c, faultPc := s.pc - 2, faultWord := encodeWord i, out := Outputs.cleared } :=
  rfl

/-- The advance of the fetch is undone by fault entry. -/
theorem State.raiseFault_begin (s : State) (c : FaultCause) (i : Instr) :
    s.begin.raiseFault c i =
      { s with fault := c, faultPc := s.pc, faultWord := encodeWord i, out := Outputs.cleared } := by
  simp [State.raiseFault, State.begin, State.withFault, State.withOut, State.withPc]

/-! ### Inputs -/

theorem State.popTick_eq (s : State) :
    s.popTick = { s with ticks := s.ticks.tail, freeCount := if s.ticks.isEmpty then s.freeCount + 1 else s.freeCount } := by
  unfold State.popTick
  rcases h : s.ticks with _ | ⟨t, ts⟩ <;> simp [State.withTicks, State.withFreeCount, h]

theorem State.popDraw_eq (s : State) :
    s.popDraw = { s with draws := s.draws.tail, freeCount := if s.draws.isEmpty then s.freeCount + 1 else s.freeCount } := by
  unfold State.popDraw
  rcases h : s.draws with _ | ⟨t, ts⟩ <;> simp [State.withDraws, State.withFreeCount, h]

/-- A random byte changes RNG, or the inputs of the model, and nothing else. -/
theorem State.randomByte_frame (s : State) :
    s.randomByte.2 =
      { s with rng := s.randomByte.2.rng, draws := s.randomByte.2.draws, freeCount := s.randomByte.2.freeCount } := by
  unfold State.randomByte
  split
  · rfl
  · rw [State.popDraw_eq]

/-! ### The end of a step -/

theorem State.complete_of_none (s : State) (tick : Bool) (h : s.fault = .none) :
    s.complete tick = s.finish tick := by simp [State.complete, h]

theorem State.complete_of_fault (s : State) (tick : Bool) (h : s.fault ≠ .none) :
    s.complete tick = s := by simp [State.complete, h]

theorem State.finish_eq (s : State) (tick : Bool) :
    s.finish tick =
      { s with dt := countDown tick s.dt, st := countDown tick s.st,
               out := { s.out with cont := true, beep := beeps tick s.st } } := rfl

theorem countDown_toNat (tick : Bool) (b : Byte) :
    (countDown tick b).toNat = if tick then b.toNat - 1 else b.toNat := by
  unfold countDown
  by_cases h : b = 0
  · subst h; cases tick <;> rfl
  · have h0 : b.toNat ≠ 0 := fun e => h (BitVec.eq_of_toNat_eq (by simpa using e))
    have := b.isLt
    cases tick
    · simp only [h, if_false]; rfl
    · simp only [h, if_false, if_true, BitVec.toNat_sub]
      show (2 ^ 8 - 1 + b.toNat) % 2 ^ 8 = b.toNat - 1
      omega

end Sys2Proof.Machine
end

