-- ==== Sys2Proof/Laws/Draw.lean ====
section
/-! SUPPORT. The cells a sprite toggles, counted as the statements count them. -/

namespace Sys2Proof.Machine

theorem count_spriteRow (w py x0 : Nat) (b : Byte) (p : Nat × Nat) :
    (spriteRow w py x0 b).count p =
      (List.range 8).countP fun c => b.getMsbD c && decide (py = p.1) && decide ((x0 + c) % w = p.2) := by
  unfold spriteRow
  rw [List.count, List.countP_filterMap]
  congr 1
  funext c
  cases hb : b.getMsbD c
  · simp
  · obtain ⟨p1, p2⟩ := p
    by_cases h1 : py = p1 <;> by_cases h2 : (x0 + c) % w = p2 <;> simp [h1, h2]

theorem count_spriteCells (w h x0 y0 r0 : Nat) (bs : List Byte) (p : Nat × Nat) :
    (spriteCells w h x0 y0 r0 bs).count p =
      ((List.range bs.length).flatMap fun r => (List.range 8).map fun c => (r, c)).countP fun rc =>
        (bs.getD rc.1 0).getMsbD rc.2 && decide ((y0 + (r0 + rc.1)) % h = p.1)
          && decide ((x0 + rc.2) % w = p.2) := by
  induction bs generalizing r0 with
  | nil => simp [spriteCells]
  | cons b bs ih =>
    rw [spriteCells, List.count_append, count_spriteRow, ih (r0 + 1), List.length_cons,
      List.range_succ_eq_map (n := bs.length), List.flatMap_cons, List.countP_append, List.countP_map]
    congr 1
    rw [List.flatMap_map, List.countP_flatMap, List.countP_flatMap]
    congr 1
    refine List.map_congr_left fun r _ => ?_
    simp only [Function.comp, List.countP_map]
    congr 1
    funext c
    have e : r0 + 1 + r = r0 + (r + 1) := by omega
    simp [e]

/-- How often DXYN toggles a cell is how many set sprite bits fall on it. -/
theorem State.count_drawCells (s : State) (x y : Reg) (n : BitVec 4) (py px : Nat) :
    (s.drawCells x y n).count (py, px) = s.bitsOn x y n py px := by
  unfold State.drawCells State.bitsOn
  rw [count_spriteCells, State.length_indirectBytes]
  refine List.countP_congr fun rc hrc => ?_
  obtain ⟨r, hr, hc⟩ := List.mem_flatMap.mp hrc
  obtain ⟨c, hc', rfl⟩ := List.mem_map.mp hc
  rw [List.mem_range] at hr hc'
  simp only [State.getD_indirectBytes s n.toNat r hr, BitVec.getMsbD, Nat.zero_add]
  simp [hc']

end Sys2Proof.Machine
end

