-- ==== Sys2Proof/Laws/Exec.lean ====
section
/-! SUPPORT. The dispatch, said once: an instruction either takes the fault the table gives it, or completes
without touching the configuration, the keypad, the fault registers, the outputs and the ticks. -/

namespace Sys2Proof.Machine

/-- What an instruction that completes leaves alone, and the shape of what it writes. -/
structure Completes (s t : State) : Prop where
  cfg : t.cfg = s.cfg
  keys : t.keys = s.keys
  fault : t.fault = s.fault
  faultPc : t.faultPc = s.faultPc
  faultWord : t.faultWord = s.faultWord
  out : t.out = s.out
  ticks : t.ticks = s.ticks
  wf : Memory.wf s.cfg s.mem → Memory.wf s.cfg t.mem
  sized : s.disp.sized s.cfg.displayW s.cfg.displayH → t.disp.sized s.cfg.displayW s.cfg.displayH

/-- A store of bytes inside MEM_SIZE, and I with it. -/
theorem Completes.of_store (s : State) (bs : List Byte) (a : Word)
    (h : s.ireg.toNat + bs.length ≤ s.cfg.memSize) :
    Completes s ((s.writeBytes s.ireg.toNat bs).withI a) := by
  have e := State.writeBytes_eq s s.ireg.toNat bs
  refine ⟨?_, ?_, ?_, ?_, ?_, ?_, ?_, fun hm => State.wf_writeBytes s hm _ _ h, fun hd => ?_⟩ <;> rw [e]
  all_goals first | rfl | exact hd

theorem execRet_cases (s : State) :
    (faultOf .ret s = .none ∧ ∃ t, execRet s = .next t ∧ Completes s t) ∨
    (faultOf .ret s ≠ .none ∧ execRet s = .next (s.raiseFault (faultOf .ret s) .ret)) := by
  unfold execRet
  cases h : s.pop? with
  | none =>
    have := (State.pop?_eq_none s).mp h
    exact .inr (by simp [faultOf, this])
  | some p =>
    obtain ⟨a, t⟩ := p
    obtain ⟨hlt, -, rfl⟩ := State.pop?_eq_some s t a h
    have : s.sp.val ≠ 0 := by omega
    exact .inl ⟨by simp only [faultOf, if_neg this], _, rfl, ⟨rfl, rfl, rfl, rfl, rfl, rfl, rfl, id, id⟩⟩

theorem execCall_cases (nnn : BitVec 12) (s : State) :
    (faultOf (.call nnn) s = .none ∧ ∃ t, execCall nnn s = .next t ∧ Completes s t) ∨
    (faultOf (.call nnn) s ≠ .none ∧
      execCall nnn s = .next (s.raiseFault (faultOf (.call nnn) s) (.call nnn))) := by
  unfold execCall
  cases h : s.push? s.pc with
  | none =>
    have := (State.push?_eq_none s s.pc).mp h
    exact .inr (by simp [faultOf, this])
  | some t =>
    obtain ⟨hlt, rfl⟩ := State.push?_eq_some s t s.pc h
    have : s.sp.val ≠ 16 := by omega
    exact .inl ⟨by simp only [faultOf, if_neg this], _, rfl, ⟨rfl, rfl, rfl, rfl, rfl, rfl, rfl, id, id⟩⟩

theorem execDrw_cases (x y : Reg) (n : BitVec 4) (s : State) :
    (faultOf (.drw x y n) s = .none ∧ ∃ t, execDrw x y n s = .next t ∧ Completes s t) ∨
    (faultOf (.drw x y n) s ≠ .none ∧
      execDrw x y n s = .next (s.raiseFault (faultOf (.drw x y n) s) (.drw x y n))) := by
  unfold execDrw
  cases h : s.indirectOk n.toNat with
  | true =>
    have hk := (State.indirectOk_forall s n.toNat).mp h
    have : ¬ ∃ k < n.toNat, s.cfg.memSize ≤ s.ireg.toNat + k := by
      rintro ⟨k, h1, h2⟩; have := hk k h1; omega
    exact .inl ⟨by simp only [faultOf, if_neg this], _, rfl,
      ⟨rfl, rfl, rfl, rfl, rfl, rfl, rfl, id, fun hd => Display.sized_xorCells _ hd _⟩⟩
  | false =>
    have : ∃ k < n.toNat, s.cfg.memSize ≤ s.ireg.toNat + k := by
      by_contra hc
      refine absurd ((State.indirectOk_forall s n.toNat).mpr fun k hk => ?_) (by simp [h])
      exact Nat.lt_of_not_le fun hle => hc ⟨k, hk, hle⟩
    exact .inr (by simp [faultOf, if_pos this])

theorem execLdB_cases (x : Reg) (s : State) :
    (faultOf (.ldB x) s = .none ∧ ∃ t, execLdB x s = .next t ∧ Completes s t) ∨
    (faultOf (.ldB x) s ≠ .none ∧ execLdB x s = .next (s.raiseFault (faultOf (.ldB x) s) (.ldB x))) := by
  unfold execLdB
  by_cases h : s.cfg.memSize ≤ s.ireg.toNat + 2
  · have : s.indirectOk 3 = false := by rw [← Bool.not_eq_true, State.indirectOk_iff]; omega
    exact .inr (by simp [faultOf, h, this])
  · have : s.indirectOk 3 = true := by rw [State.indirectOk_iff]; omega
    refine .inl ⟨by simp [faultOf, h], _, by simp only [this, if_true]; rfl, ?_⟩
    have e : s.writeBytes s.ireg.toNat (decimalDigits (s.getV x)) =
        (s.writeBytes s.ireg.toNat (decimalDigits (s.getV x))).withI s.ireg := by
      conv => lhs; rw [State.writeBytes_eq]
      conv => rhs; rw [State.writeBytes_eq]
      rfl
    rw [e]; exact Completes.of_store s _ _ (by rw [length_decimalDigits]; omega)

theorem execLdMemVx_cases (x : Reg) (s : State) :
    (faultOf (.ldMemVx x) s = .none ∧ ∃ t, execLdMemVx x s = .next t ∧ Completes s t) ∨
    (faultOf (.ldMemVx x) s ≠ .none ∧
      execLdMemVx x s = .next (s.raiseFault (faultOf (.ldMemVx x) s) (.ldMemVx x))) := by
  unfold execLdMemVx
  by_cases h : s.cfg.memSize ≤ s.ireg.toNat + x.val
  · have : s.indirectOk (x.val + 1) = false := by rw [← Bool.not_eq_true, State.indirectOk_iff]; omega
    exact .inr (by simp [faultOf, h, this])
  · have : s.indirectOk (x.val + 1) = true := by rw [State.indirectOk_iff]; omega
    refine .inl ⟨by simp [faultOf, h], _, by simp only [this, if_true]; rfl, ?_⟩
    rw [State.advanceI_eq]; exact Completes.of_store s _ _ (by rw [State.length_lowRegs]; omega)

theorem execLdVxMem_cases (x : Reg) (s : State) :
    (faultOf (.ldVxMem x) s = .none ∧ ∃ t, execLdVxMem x s = .next t ∧ Completes s t) ∨
    (faultOf (.ldVxMem x) s ≠ .none ∧
      execLdVxMem x s = .next (s.raiseFault (faultOf (.ldVxMem x) s) (.ldVxMem x))) := by
  unfold execLdVxMem
  by_cases h : s.cfg.memSize ≤ s.ireg.toNat + x.val
  · have : s.indirectOk (x.val + 1) = false := by rw [← Bool.not_eq_true, State.indirectOk_iff]; omega
    exact .inr (by simp [faultOf, h, this])
  · have : s.indirectOk (x.val + 1) = true := by rw [State.indirectOk_iff]; omega
    refine .inl ⟨by simp [faultOf, h], _, by simp only [this, if_true]; rfl, ?_⟩
    obtain ⟨u, hu⟩ : ∃ u, s.loadRegs x = s.withV u := ⟨_, rfl⟩
    rw [State.advanceI_eq, hu]; exact ⟨rfl, rfl, rfl, rfl, rfl, rfl, rfl, id, id⟩

theorem execSkp_cases (x : Reg) (s : State) :
    (faultOf (.skp x) s = .none ∧ ∃ t, execSkp x s = .next t ∧ Completes s t) ∨
    (faultOf (.skp x) s ≠ .none ∧ execSkp x s = .next (s.raiseFault (faultOf (.skp x) s) (.skp x))) := by
  unfold execSkp
  cases h : s.keyOf? (s.getV x) with
  | none =>
    have := (State.keyOf?_eq_none s _).mp h
    exact .inr (by simp [faultOf, this])
  | some b =>
    have : ¬ 15 < (s.getV x).toNat := fun hc => by simp [(State.keyOf?_eq_none s _).mpr hc] at h
    exact .inl ⟨by simp only [faultOf, if_neg this], _, rfl, by rw [State.skipIf_eq]; exact ⟨rfl, rfl, rfl, rfl, rfl, rfl, rfl, id, id⟩⟩

theorem execSknp_cases (x : Reg) (s : State) :
    (faultOf (.sknp x) s = .none ∧ ∃ t, execSknp x s = .next t ∧ Completes s t) ∨
    (faultOf (.sknp x) s ≠ .none ∧ execSknp x s = .next (s.raiseFault (faultOf (.sknp x) s) (.sknp x))) := by
  unfold execSknp
  cases h : s.keyOf? (s.getV x) with
  | none =>
    have := (State.keyOf?_eq_none s _).mp h
    exact .inr (by simp [faultOf, this])
  | some b =>
    have : ¬ 15 < (s.getV x).toNat := fun hc => by simp [(State.keyOf?_eq_none s _).mpr hc] at h
    exact .inl ⟨by simp only [faultOf, if_neg this], _, rfl, by rw [State.skipIf_eq]; exact ⟨rfl, rfl, rfl, rfl, rfl, rfl, rfl, id, id⟩⟩

/-- Everything an instruction can do, as far as it is common to all. -/
theorem exec_cases (i : Instr) (s : State) :
    (faultOf i s = .none ∧ ∃ t, exec i s = .next t ∧ Completes s t) ∨
    (faultOf i s ≠ .none ∧ exec i s = .next (s.raiseFault (faultOf i s) i)) := by
  cases i with
  | ret => exact execRet_cases s
  | call nnn => exact execCall_cases nnn s
  | drw x y n => exact execDrw_cases x y n s
  | ldB x => exact execLdB_cases x s
  | ldMemVx x => exact execLdMemVx_cases x s
  | ldVxMem x => exact execLdVxMem_cases x s
  | skp x => exact execSkp_cases x s
  | sknp x => exact execSknp_cases x s
  | cls => exact .inl ⟨rfl, _, rfl, rfl, rfl, rfl, rfl, rfl, rfl, rfl, id, fun _ => Display.sized_blank _ _⟩
  | rnd x kk =>
    refine .inl ⟨rfl, _, rfl, ?_⟩
    rw [State.randomByte_frame]; exact ⟨rfl, rfl, rfl, rfl, rfl, rfl, rfl, id, id⟩
  | ldVxK x =>
    refine .inl ⟨rfl, ?_⟩
    simp only [exec, execLdVxK]
    split <;> exact ⟨_, rfl, ⟨rfl, rfl, rfl, rfl, rfl, rfl, rfl, id, id⟩⟩
  | shr x y =>
    refine .inl ⟨rfl, _, rfl, ?_⟩
    unfold State.shiftBy
    split <;> exact ⟨rfl, rfl, rfl, rfl, rfl, rfl, rfl, id, id⟩
  | shl x y =>
    refine .inl ⟨rfl, _, rfl, ?_⟩
    unfold State.shiftBy
    split <;> exact ⟨rfl, rfl, rfl, rfl, rfl, rfl, rfl, id, id⟩
  | seImm x kk => exact .inl ⟨rfl, _, rfl, by rw [State.skipIf_eq]; exact ⟨rfl, rfl, rfl, rfl, rfl, rfl, rfl, id, id⟩⟩
  | sneImm x kk => exact .inl ⟨rfl, _, rfl, by rw [State.skipIf_eq]; exact ⟨rfl, rfl, rfl, rfl, rfl, rfl, rfl, id, id⟩⟩
  | seReg x y => exact .inl ⟨rfl, _, rfl, by rw [State.skipIf_eq]; exact ⟨rfl, rfl, rfl, rfl, rfl, rfl, rfl, id, id⟩⟩
  | sneReg x y => exact .inl ⟨rfl, _, rfl, by rw [State.skipIf_eq]; exact ⟨rfl, rfl, rfl, rfl, rfl, rfl, rfl, id, id⟩⟩
  | nop => exact .inl ⟨rfl, _, rfl, ⟨rfl, rfl, rfl, rfl, rfl, rfl, rfl, id, id⟩⟩
  | jp nnn => exact .inl ⟨rfl, _, rfl, ⟨rfl, rfl, rfl, rfl, rfl, rfl, rfl, id, id⟩⟩
  | ldImm x kk => exact .inl ⟨rfl, _, rfl, ⟨rfl, rfl, rfl, rfl, rfl, rfl, rfl, id, id⟩⟩
  | addImm x kk => exact .inl ⟨rfl, _, rfl, ⟨rfl, rfl, rfl, rfl, rfl, rfl, rfl, id, id⟩⟩
  | ldReg x y => exact .inl ⟨rfl, _, rfl, ⟨rfl, rfl, rfl, rfl, rfl, rfl, rfl, id, id⟩⟩
  | orReg x y => exact .inl ⟨rfl, _, rfl, ⟨rfl, rfl, rfl, rfl, rfl, rfl, rfl, id, id⟩⟩
  | andReg x y => exact .inl ⟨rfl, _, rfl, ⟨rfl, rfl, rfl, rfl, rfl, rfl, rfl, id, id⟩⟩
  | xorReg x y => exact .inl ⟨rfl, _, rfl, ⟨rfl, rfl, rfl, rfl, rfl, rfl, rfl, id, id⟩⟩
  | addReg x y => exact .inl ⟨rfl, _, rfl, ⟨rfl, rfl, rfl, rfl, rfl, rfl, rfl, id, id⟩⟩
  | sub x y => exact .inl ⟨rfl, _, rfl, ⟨rfl, rfl, rfl, rfl, rfl, rfl, rfl, id, id⟩⟩
  | subn x y => exact .inl ⟨rfl, _, rfl, ⟨rfl, rfl, rfl, rfl, rfl, rfl, rfl, id, id⟩⟩
  | ldI nnn => exact .inl ⟨rfl, _, rfl, ⟨rfl, rfl, rfl, rfl, rfl, rfl, rfl, id, id⟩⟩
  | jpV0 nnn => exact .inl ⟨rfl, _, rfl, ⟨rfl, rfl, rfl, rfl, rfl, rfl, rfl, id, id⟩⟩
  | ldVxDt x => exact .inl ⟨rfl, _, rfl, ⟨rfl, rfl, rfl, rfl, rfl, rfl, rfl, id, id⟩⟩
  | ldDt x => exact .inl ⟨rfl, _, rfl, ⟨rfl, rfl, rfl, rfl, rfl, rfl, rfl, id, id⟩⟩
  | ldSt x => exact .inl ⟨rfl, _, rfl, ⟨rfl, rfl, rfl, rfl, rfl, rfl, rfl, id, id⟩⟩
  | addI x => exact .inl ⟨rfl, _, rfl, ⟨rfl, rfl, rfl, rfl, rfl, rfl, rfl, id, id⟩⟩
  | ldF x => exact .inl ⟨rfl, _, rfl, ⟨rfl, rfl, rfl, rfl, rfl, rfl, rfl, id, id⟩⟩

end Sys2Proof.Machine
end

