-- ==== Sys2Proof/Laws/PerInstr.lean ====
section
/-! SUPPORT. Laws stated per instruction. EncodeFixed: the word of an instruction carries the fixed bits of its
row, `w & mask = match` (30_encoding.md R65, R67). -/

namespace Sys2Proof.Laws

/-- Bit `i` of a word of format A. -/
theorem getLsbD_encA (op : BitVec 4) (nnn : BitVec 12) (i : Nat) :
    (encA op nnn).getLsbD i = if i < 12 then nnn.getLsbD i else op.getLsbD (i - 12) :=
  BitVec.getLsbD_append (x := op) (y := nnn) (i := i)

/-- Bit `i` of a word of format XK or XF. -/
theorem getLsbD_encXK (op : BitVec 4) (x : Reg) (kk : Byte) (i : Nat) :
    (encXK op x kk).getLsbD i =
      if i < 8 then kk.getLsbD i
      else if i - 8 < 4 then x.val.testBit (i - 8) else op.getLsbD (i - 8 - 4) :=
  (BitVec.getLsbD_append (x := op ++ BitVec.ofFin (w := 4) x) (y := kk) (i := i)).trans (by
    rw [BitVec.getLsbD_append (x := op) (y := BitVec.ofFin (w := 4) x) (i := i - 8)]; rfl)

/-- Bit `i` of a word of format XY or XYN. -/
theorem getLsbD_encXYN (op : BitVec 4) (x y : Reg) (n : BitVec 4) (i : Nat) :
    (encXYN op x y n).getLsbD i =
      if i < 4 then n.getLsbD i
      else if i - 4 < 4 then y.val.testBit (i - 4)
      else if i - 4 - 4 < 4 then x.val.testBit (i - 4 - 4) else op.getLsbD (i - 4 - 4 - 4) :=
  (BitVec.getLsbD_append (x := op ++ BitVec.ofFin (w := 4) x ++ BitVec.ofFin (w := 4) y) (y := n)
    (i := i)).trans (by
    rw [BitVec.getLsbD_append (x := op ++ BitVec.ofFin (w := 4) x) (y := BitVec.ofFin (w := 4) y) (i := i - 4),
      BitVec.getLsbD_append (x := op) (y := BitVec.ofFin (w := 4) x) (i := i - 4 - 4)]; rfl)

/-! ### What a row's mask keeps of a word -/

theorem mask_encA (op : BitVec 4) (nnn : BitVec 12) : encA op nnn &&& 0xF000 = encA op 0 := by
  apply BitVec.eq_of_getLsbD_eq
  intro i hi
  rw [BitVec.getLsbD_and, getLsbD_encA, getLsbD_encA]
  interval_cases i <;> simp

theorem mask_encXK (op : BitVec 4) (x : Reg) (kk : Byte) : encXK op x kk &&& 0xF000 = encXK op 0 0 := by
  apply BitVec.eq_of_getLsbD_eq
  intro i hi
  rw [BitVec.getLsbD_and, getLsbD_encXK, getLsbD_encXK]
  interval_cases i <;> simp

theorem mask_encXF (op : BitVec 4) (x : Reg) (kk : Byte) : encXK op x kk &&& 0xF0FF = encXK op 0 kk := by
  apply BitVec.eq_of_getLsbD_eq
  intro i hi
  rw [BitVec.getLsbD_and, getLsbD_encXK, getLsbD_encXK]
  interval_cases i <;> simp

theorem mask_encXY (op : BitVec 4) (x y : Reg) (n : BitVec 4) : encXYN op x y n &&& 0xF00F = encXYN op 0 0 n := by
  apply BitVec.eq_of_getLsbD_eq
  intro i hi
  rw [BitVec.getLsbD_and, getLsbD_encXYN, getLsbD_encXYN]
  interval_cases i <;> simp

theorem mask_encXYN (op : BitVec 4) (x y : Reg) (n : BitVec 4) : encXYN op x y n &&& 0xF000 = encXYN op 0 0 0 := by
  apply BitVec.eq_of_getLsbD_eq
  intro i hi
  rw [BitVec.getLsbD_and, getLsbD_encXYN, getLsbD_encXYN]
  interval_cases i <;> simp

/-! ### A masked word in numbers -/

theorem word_and_F000 (w : Word) : (w &&& 0xF000).toNat = w.toNat / 4096 * 4096 := by
  have hop : fieldOp w = (w.extractLsb' 12 4).toNat := rfl
  have h := mask_encA (w.extractLsb' 12 4) (fieldNNN w)
  rw [word_eq_encA w _ hop] at h
  rw [h, encA_toNat, ← hop, fieldOp_eq]; simp

theorem word_and_F0FF (w : Word) : (w &&& 0xF0FF).toNat = w.toNat / 4096 * 4096 + w.toNat % 256 := by
  have hop : fieldOp w = (w.extractLsb' 12 4).toNat := rfl
  have h := mask_encXF (w.extractLsb' 12 4) (fieldX w) (fieldKK w)
  rw [word_eq_encXK w _ _ hop rfl] at h
  rw [h, encXK_toNat, ← hop, fieldOp_eq, fieldKK_toNat]; simp

theorem word_and_F00F (w : Word) : (w &&& 0xF00F).toNat = w.toNat / 4096 * 4096 + w.toNat % 16 := by
  have hop : fieldOp w = (w.extractLsb' 12 4).toNat := rfl
  have h := mask_encXY (w.extractLsb' 12 4) (fieldX w) (fieldY w) (fieldN w)
  rw [word_eq_encXYN w _ _ hop rfl] at h
  rw [h, encXYN_toNat, ← hop, fieldOp_eq, fieldN_toNat]; simp

theorem word_and_FFFF (w : Word) : w &&& 0xFFFF = w := BitVec.and_allOnes

/-- Of two rows of the opcode map that agree on the bits both fix, the table holds one. -/
theorem opcodeRows_check :
    (opcodeRows.all fun r => opcodeRows.all fun q =>
      (Nat.land r.2.toNat q.1.toNat != Nat.land q.2.toNat r.1.toNat)
        || (Nat.beq r.1.toNat q.1.toNat && Nat.beq r.2.toNat q.2.toNat)) = true := rfl

end Sys2Proof.Laws

namespace Sys2Proof.Laws.EncodeFixed

/-- The word of `i` has the fixed bits of its row. -/
def Statement (i : Instr) : Prop := encodeWord i &&& (rowMaskMatch i).1 = (rowMaskMatch i).2

theorem nop : Statement (.nop) := rfl
theorem cls : Statement (.cls) := rfl
theorem ret : Statement (.ret) := rfl
theorem jp (nnn : BitVec 12) : Statement (.jp nnn) := mask_encA _ nnn
theorem call (nnn : BitVec 12) : Statement (.call nnn) := mask_encA _ nnn
theorem seImm (x : Reg) (kk : Byte) : Statement (.seImm x kk) := mask_encXK _ x kk
theorem sneImm (x : Reg) (kk : Byte) : Statement (.sneImm x kk) := mask_encXK _ x kk
theorem seReg (x y : Reg) : Statement (.seReg x y) := mask_encXY _ x y _
theorem ldImm (x : Reg) (kk : Byte) : Statement (.ldImm x kk) := mask_encXK _ x kk
theorem addImm (x : Reg) (kk : Byte) : Statement (.addImm x kk) := mask_encXK _ x kk
theorem ldReg (x y : Reg) : Statement (.ldReg x y) := mask_encXY _ x y _
theorem orReg (x y : Reg) : Statement (.orReg x y) := mask_encXY _ x y _
theorem andReg (x y : Reg) : Statement (.andReg x y) := mask_encXY _ x y _
theorem xorReg (x y : Reg) : Statement (.xorReg x y) := mask_encXY _ x y _
theorem addReg (x y : Reg) : Statement (.addReg x y) := mask_encXY _ x y _
theorem sub (x y : Reg) : Statement (.sub x y) := mask_encXY _ x y _
theorem shr (x y : Reg) : Statement (.shr x y) := mask_encXY _ x y _
theorem subn (x y : Reg) : Statement (.subn x y) := mask_encXY _ x y _
theorem shl (x y : Reg) : Statement (.shl x y) := mask_encXY _ x y _
theorem sneReg (x y : Reg) : Statement (.sneReg x y) := mask_encXY _ x y _
theorem ldI (nnn : BitVec 12) : Statement (.ldI nnn) := mask_encA _ nnn
theorem jpV0 (nnn : BitVec 12) : Statement (.jpV0 nnn) := mask_encA _ nnn
theorem rnd (x : Reg) (kk : Byte) : Statement (.rnd x kk) := mask_encXK _ x kk
theorem drw (x y : Reg) (n : BitVec 4) : Statement (.drw x y n) := mask_encXYN _ x y n
theorem skp (x : Reg) : Statement (.skp x) := mask_encXF _ x _
theorem sknp (x : Reg) : Statement (.sknp x) := mask_encXF _ x _
theorem ldVxDt (x : Reg) : Statement (.ldVxDt x) := mask_encXF _ x _
theorem ldVxK (x : Reg) : Statement (.ldVxK x) := mask_encXF _ x _
theorem ldDt (x : Reg) : Statement (.ldDt x) := mask_encXF _ x _
theorem ldSt (x : Reg) : Statement (.ldSt x) := mask_encXF _ x _
theorem addI (x : Reg) : Statement (.addI x) := mask_encXF _ x _
theorem ldF (x : Reg) : Statement (.ldF x) := mask_encXF _ x _
theorem ldB (x : Reg) : Statement (.ldB x) := mask_encXF _ x _
theorem ldMemVx (x : Reg) : Statement (.ldMemVx x) := mask_encXF _ x _
theorem ldVxMem (x : Reg) : Statement (.ldVxMem x) := mask_encXF _ x _

end Sys2Proof.Laws.EncodeFixed
end

