-- ==== Sys2Proof/Laws/Rows.lean ====
section
/-! SUPPORT. The rows of the opcode map, read by the decoder: a word with the fixed bits of a row is that row's
instruction, of the word's own fields. -/

namespace Sys2Proof.Laws

theorem fieldOp_of_F000 (w : Word) (k : Nat) (hk : k < 16) (h : w &&& 0xF000 = BitVec.ofNat 16 (k * 4096)) :
    fieldOp w = k := by
  have e := congrArg BitVec.toNat h
  rw [word_and_F000, BitVec.toNat_ofNat] at e
  rw [fieldOp_eq]; omega

theorem fields_of_F00F (w : Word) (k n : Nat) (hk : k < 16) (hn : n < 16)
    (h : w &&& 0xF00F = BitVec.ofNat 16 (k * 4096 + n)) : fieldOp w = k ∧ (fieldN w).toNat = n := by
  have e := congrArg BitVec.toNat h
  rw [word_and_F00F, BitVec.toNat_ofNat] at e
  rw [fieldOp_eq, fieldN_toNat]; omega

theorem fields_of_F0FF (w : Word) (k n : Nat) (hk : k < 16) (hn : n < 256)
    (h : w &&& 0xF0FF = BitVec.ofNat 16 (k * 4096 + n)) : fieldOp w = k ∧ (fieldKK w).toNat = n := by
  have e := congrArg BitVec.toNat h
  rw [word_and_F0FF, BitVec.toNat_ofNat] at e
  rw [fieldOp_eq, fieldKK_toNat]; omega

variable (w : Word)

theorem row_nop (h : w &&& 0xFFFF = 0x0000) : decodeWord w = .ok .nop := by
  rw [word_and_FFFF] at h; subst h; rfl

theorem row_cls (h : w &&& 0xFFFF = 0x00E0) : decodeWord w = .ok .cls := by
  rw [word_and_FFFF] at h; subst h; rfl

theorem row_ret (h : w &&& 0xFFFF = 0x00EE) : decodeWord w = .ok .ret := by
  rw [word_and_FFFF] at h; subst h; rfl

theorem row_jp (h : w &&& 0xF000 = 0x1000) : decodeWord w = .ok (.jp (fieldNNN w)) := by
  simp only [decodeWord, fieldOp_of_F000 w 1 (by decide) h]

theorem row_call (h : w &&& 0xF000 = 0x2000) : decodeWord w = .ok (.call (fieldNNN w)) := by
  simp only [decodeWord, fieldOp_of_F000 w 2 (by decide) h]

theorem row_ldI (h : w &&& 0xF000 = 0xA000) : decodeWord w = .ok (.ldI (fieldNNN w)) := by
  simp only [decodeWord, fieldOp_of_F000 w 10 (by decide) h]

theorem row_jpV0 (h : w &&& 0xF000 = 0xB000) : decodeWord w = .ok (.jpV0 (fieldNNN w)) := by
  simp only [decodeWord, fieldOp_of_F000 w 11 (by decide) h]

theorem row_seImm (h : w &&& 0xF000 = 0x3000) : decodeWord w = .ok (.seImm (fieldX w) (fieldKK w)) := by
  simp only [decodeWord, fieldOp_of_F000 w 3 (by decide) h]

theorem row_sneImm (h : w &&& 0xF000 = 0x4000) : decodeWord w = .ok (.sneImm (fieldX w) (fieldKK w)) := by
  simp only [decodeWord, fieldOp_of_F000 w 4 (by decide) h]

theorem row_ldImm (h : w &&& 0xF000 = 0x6000) : decodeWord w = .ok (.ldImm (fieldX w) (fieldKK w)) := by
  simp only [decodeWord, fieldOp_of_F000 w 6 (by decide) h]

theorem row_addImm (h : w &&& 0xF000 = 0x7000) : decodeWord w = .ok (.addImm (fieldX w) (fieldKK w)) := by
  simp only [decodeWord, fieldOp_of_F000 w 7 (by decide) h]

theorem row_rnd (h : w &&& 0xF000 = 0xC000) : decodeWord w = .ok (.rnd (fieldX w) (fieldKK w)) := by
  simp only [decodeWord, fieldOp_of_F000 w 12 (by decide) h]

theorem row_drw (h : w &&& 0xF000 = 0xD000) :
    decodeWord w = .ok (.drw (fieldX w) (fieldY w) (fieldN w)) := by
  simp only [decodeWord, fieldOp_of_F000 w 13 (by decide) h]

theorem row_seReg (h : w &&& 0xF00F = 0x5000) : decodeWord w = .ok (.seReg (fieldX w) (fieldY w)) := by
  obtain ⟨hk, hn⟩ := fields_of_F00F w 5 0 (by decide) (by decide) h
  have e : fieldN w = 0 := BitVec.eq_of_toNat_eq hn
  simp only [decodeWord, hk, requireN0, e, if_true]

theorem row_ldReg (h : w &&& 0xF00F = 0x8000) : decodeWord w = .ok (.ldReg (fieldX w) (fieldY w)) := by
  obtain ⟨hk, hn⟩ := fields_of_F00F w 8 0 (by decide) (by decide) h
  simp only [decodeWord, hk, decode8, hn]

theorem row_orReg (h : w &&& 0xF00F = 0x8001) : decodeWord w = .ok (.orReg (fieldX w) (fieldY w)) := by
  obtain ⟨hk, hn⟩ := fields_of_F00F w 8 1 (by decide) (by decide) h
  simp only [decodeWord, hk, decode8, hn]

theorem row_andReg (h : w &&& 0xF00F = 0x8002) : decodeWord w = .ok (.andReg (fieldX w) (fieldY w)) := by
  obtain ⟨hk, hn⟩ := fields_of_F00F w 8 2 (by decide) (by decide) h
  simp only [decodeWord, hk, decode8, hn]

theorem row_xorReg (h : w &&& 0xF00F = 0x8003) : decodeWord w = .ok (.xorReg (fieldX w) (fieldY w)) := by
  obtain ⟨hk, hn⟩ := fields_of_F00F w 8 3 (by decide) (by decide) h
  simp only [decodeWord, hk, decode8, hn]

theorem row_addReg (h : w &&& 0xF00F = 0x8004) : decodeWord w = .ok (.addReg (fieldX w) (fieldY w)) := by
  obtain ⟨hk, hn⟩ := fields_of_F00F w 8 4 (by decide) (by decide) h
  simp only [decodeWord, hk, decode8, hn]

theorem row_sub (h : w &&& 0xF00F = 0x8005) : decodeWord w = .ok (.sub (fieldX w) (fieldY w)) := by
  obtain ⟨hk, hn⟩ := fields_of_F00F w 8 5 (by decide) (by decide) h
  simp only [decodeWord, hk, decode8, hn]

theorem row_shr (h : w &&& 0xF00F = 0x8006) : decodeWord w = .ok (.shr (fieldX w) (fieldY w)) := by
  obtain ⟨hk, hn⟩ := fields_of_F00F w 8 6 (by decide) (by decide) h
  simp only [decodeWord, hk, decode8, hn]

theorem row_subn (h : w &&& 0xF00F = 0x8007) : decodeWord w = .ok (.subn (fieldX w) (fieldY w)) := by
  obtain ⟨hk, hn⟩ := fields_of_F00F w 8 7 (by decide) (by decide) h
  simp only [decodeWord, hk, decode8, hn]

theorem row_shl (h : w &&& 0xF00F = 0x800E) : decodeWord w = .ok (.shl (fieldX w) (fieldY w)) := by
  obtain ⟨hk, hn⟩ := fields_of_F00F w 8 14 (by decide) (by decide) h
  simp only [decodeWord, hk, decode8, hn]

theorem row_sneReg (h : w &&& 0xF00F = 0x9000) : decodeWord w = .ok (.sneReg (fieldX w) (fieldY w)) := by
  obtain ⟨hk, hn⟩ := fields_of_F00F w 9 0 (by decide) (by decide) h
  have e : fieldN w = 0 := BitVec.eq_of_toNat_eq hn
  simp only [decodeWord, hk, requireN0, e, if_true]

theorem row_skp (h : w &&& 0xF0FF = 0xE09E) : decodeWord w = .ok (.skp (fieldX w)) := by
  obtain ⟨hk, hn⟩ := fields_of_F0FF w 14 158 (by decide) (by decide) h
  simp only [decodeWord, hk, decodeE, hn]

theorem row_sknp (h : w &&& 0xF0FF = 0xE0A1) : decodeWord w = .ok (.sknp (fieldX w)) := by
  obtain ⟨hk, hn⟩ := fields_of_F0FF w 14 161 (by decide) (by decide) h
  simp only [decodeWord, hk, decodeE, hn]

theorem row_ldVxDt (h : w &&& 0xF0FF = 0xF007) : decodeWord w = .ok (.ldVxDt (fieldX w)) := by
  obtain ⟨hk, hn⟩ := fields_of_F0FF w 15 7 (by decide) (by decide) h
  simp only [decodeWord, hk, decodeF, hn]

theorem row_ldVxK (h : w &&& 0xF0FF = 0xF00A) : decodeWord w = .ok (.ldVxK (fieldX w)) := by
  obtain ⟨hk, hn⟩ := fields_of_F0FF w 15 10 (by decide) (by decide) h
  simp only [decodeWord, hk, decodeF, hn]

theorem row_ldDt (h : w &&& 0xF0FF = 0xF015) : decodeWord w = .ok (.ldDt (fieldX w)) := by
  obtain ⟨hk, hn⟩ := fields_of_F0FF w 15 21 (by decide) (by decide) h
  simp only [decodeWord, hk, decodeF, hn]

theorem row_ldSt (h : w &&& 0xF0FF = 0xF018) : decodeWord w = .ok (.ldSt (fieldX w)) := by
  obtain ⟨hk, hn⟩ := fields_of_F0FF w 15 24 (by decide) (by decide) h
  simp only [decodeWord, hk, decodeF, hn]

theorem row_addI (h : w &&& 0xF0FF = 0xF01E) : decodeWord w = .ok (.addI (fieldX w)) := by
  obtain ⟨hk, hn⟩ := fields_of_F0FF w 15 30 (by decide) (by decide) h
  simp only [decodeWord, hk, decodeF, hn]

theorem row_ldF (h : w &&& 0xF0FF = 0xF029) : decodeWord w = .ok (.ldF (fieldX w)) := by
  obtain ⟨hk, hn⟩ := fields_of_F0FF w 15 41 (by decide) (by decide) h
  simp only [decodeWord, hk, decodeF, hn]

theorem row_ldB (h : w &&& 0xF0FF = 0xF033) : decodeWord w = .ok (.ldB (fieldX w)) := by
  obtain ⟨hk, hn⟩ := fields_of_F0FF w 15 51 (by decide) (by decide) h
  simp only [decodeWord, hk, decodeF, hn]

theorem row_ldMemVx (h : w &&& 0xF0FF = 0xF055) : decodeWord w = .ok (.ldMemVx (fieldX w)) := by
  obtain ⟨hk, hn⟩ := fields_of_F0FF w 15 85 (by decide) (by decide) h
  simp only [decodeWord, hk, decodeF, hn]

theorem row_ldVxMem (h : w &&& 0xF0FF = 0xF065) : decodeWord w = .ok (.ldVxMem (fieldX w)) := by
  obtain ⟨hk, hn⟩ := fields_of_F0FF w 15 101 (by decide) (by decide) h
  simp only [decodeWord, hk, decodeF, hn]

end Sys2Proof.Laws
end

