-- ==== Sys2Proof/Laws/Step.lean ====
section
/-! SUPPORT. The step, said once: its four cases, and what the end of a step does. -/

namespace Sys2Proof.Machine

theorem stepTick_of_fault (tick : Bool) (s : State) (h : s.fault ≠ .none) :
    stepTick tick s = .next s.stopped := by simp [stepTick, h]

theorem stepTick_of_halt (tick : Bool) (s : State) (h : s.fault = .none) (hb : s.fetchInBounds = false) :
    stepTick tick s = .next s.stopped := by simp [stepTick, h, hb]

theorem stepTick_of_ok (tick : Bool) (s : State) (i : Instr) (h : s.fault = .none) (hb : s.fetchInBounds = true)
    (hd : decodeWord s.fetchWord = .ok i) : stepTick tick s = completeResult tick (exec i s.begin) := by
  simp [stepTick, h, hb, runWord, hd]

theorem stepTick_of_error (tick : Bool) (s : State) (r : Reject) (h : s.fault = .none)
    (hb : s.fetchInBounds = true) (hd : decodeWord s.fetchWord = .error r) :
    stepTick tick s = .next ((s.begin.unknownWord s.fetchWord).finish tick) := by
  have hc : (s.begin.unknownWord s.fetchWord).complete tick = (s.begin.unknownWord s.fetchWord).finish tick :=
    State.complete_of_none _ _ h
  simp [stepTick, h, hb, runWord, hd, hc]

/-- Everything a step can do. -/
theorem stepTick_cases (tick : Bool) (s t : State) (h : stepTick tick s = .next t) :
    (s.fault ≠ .none ∧ t = s.stopped) ∨
    (s.fault = .none ∧ s.fetchInBounds = false ∧ t = s.stopped) ∨
    (s.fault = .none ∧ s.fetchInBounds = true ∧ (∃ r, decodeWord s.fetchWord = .error r) ∧
      t = (s.begin.unknownWord s.fetchWord).finish tick) ∨
    (s.fault = .none ∧ s.fetchInBounds = true ∧
      ∃ i u, decodeWord s.fetchWord = .ok i ∧ exec i s.begin = .next u ∧ t = u.complete tick) := by
  by_cases hf : s.fault = .none
  · cases hb : s.fetchInBounds
    · rw [stepTick_of_halt tick s hf hb] at h
      exact .inr (.inl ⟨hf, rfl, (Host.Outcome.next.inj h).symm⟩)
    · cases hd : decodeWord s.fetchWord with
      | error r =>
        rw [stepTick_of_error tick s r hf hb hd] at h
        exact .inr (.inr (.inl ⟨hf, rfl, ⟨r, rfl⟩, (Host.Outcome.next.inj h).symm⟩))
      | ok i =>
        rw [stepTick_of_ok tick s i hf hb hd] at h
        cases he : exec i s.begin with
        | next u =>
          rw [he] at h
          exact .inr (.inr (.inr ⟨hf, rfl, i, u, rfl, he, (Host.Outcome.next.inj h).symm⟩))
        | fault r => exact nomatch r
        | refused r => rw [he] at h; exact absurd h (by simp [completeResult])
  · rw [stepTick_of_fault tick s hf] at h
    exact .inl ⟨hf, (Host.Outcome.next.inj h).symm⟩

/-- A step that halts or finds the engine faulted changes the outputs only. -/
theorem State.stopped_eq (s : State) :
    s.stopped = { s with out := { cont := false, beep := false, unknown := none } } := rfl

/-- The state an instruction runs in. -/
theorem State.begin_eq (s : State) :
    s.begin = { s with pc := s.pc + 2, out := { cont := false, beep := false, unknown := none } } := rfl

/-- Where the fetch is in bounds, in numbers. -/
theorem State.fetchInBounds_iff (s : State) :
    s.fetchInBounds = true ↔ s.pc.toNat + 1 < s.cfg.memSize := by simp [State.fetchInBounds]

/-- The instruction placed by `withFetchWord` is the one the next step fetches. -/
theorem State.fetchWord_storeAtPc (s : State) (w : Word) (hm : s.mem.Pairwise (fun p q => p.1 < q.1))
    (hb : s.fetchInBounds = true) : (s.storeAtPc w).fetchWord = w := by
  have hc : (s.storeAtPc w).pc = s.pc := by
    simp only [State.storeAtPc, hb, if_true]; rw [State.writeBytes_eq]; rfl
  unfold State.fetchWord
  rw [hc]
  simp only [State.storeAtPc, hb, if_true, State.readByte_writeBytes s hm, wordBytes]
  simp

end Sys2Proof.Machine
end

