-- ==== Sys2Proof/Tests/Slice0.lean ====
section
/-! SUPPORT. The model's own tests. Expected results are the spec's: 95_test_vectors.md by the vector's name,
or the example of the rule named. Witnesses at the end show that the hypotheses of each statement can be met. -/

namespace Sys2Proof.Tests

open Sys2Proof.Machine Sys2Proof.Claims

/-! ### Helpers -/

/-- Reset, with a word stored at PC = 0x200. -/
def word (w : Nat) : State := State.reset.withFetchWord 16 w

def regs (l : List (Reg × Byte)) (s : State) : State := l.foldl (fun t p => t.setV p.1 p.2) s

def bytes (a : Nat) (l : List Byte) (s : State) : State := s.writeBytes a l

def lit (l : List (Nat × Nat)) (s : State) : State := s.withDisp (s.disp.xorCells l).1

def press (l : List (Fin 16)) (s : State) : State :=
  s.writeKeypad (l.foldl (fun (k : Vector Bool 16) (j : Fin 16) => k.set j true) s.keys)

def quirky (f : Config → Config) (s : State) : State := { s with cfg := f s.cfg }

/-- What a step with the given TICK leaves, as far as `f` looks. -/
def after {α : Type} (tick : Bool) (f : State → α) (s : State) : Option α :=
  match stepTick tick s with
  | .next t => some (f t)
  | .fault _ => none
  | .refused _ => none

/-- The cells looked at, row by row. -/
def cells (l : List (Nat × Nat)) (s : State) : List Bool := l.map fun p => s.disp.get p.1 p.2

def faultOutcome (s : State) : FaultCause × Word × Word × Word × Bool :=
  (s.fault, s.faultPc, s.faultWord, s.pc, s.out.cont)

/-! ### Configurations: one ill-formed one for each check (R135) -/

theorem test_config_default : Config.default.valid = true := by decide
theorem test_config_memSize_zero : { Config.default with memSize := 0 }.memSizeValid = false := by decide
theorem test_config_memSize_large : { Config.default with memSize := 65537 }.memSizeValid = false := by decide
theorem test_config_memSize_max : { Config.default with memSize := 65536 }.valid = true := by decide
/-- HO-4. -/
theorem test_config_programStart :
    { Config.default with memSize := 256 }.programStartValid = false := by decide
theorem test_config_programStart_max : { Config.default with programStart := 4096 }.valid = true := by decide
/-- HO-3. -/
theorem test_config_font_place : { Config.default with fontBase := 0xFC0 }.fontPlaceValid = false := by decide
theorem test_config_font_place_max : { Config.default with fontBase := 0xFB0 }.valid = true := by decide
theorem test_config_display_w : { Config.default with displayW := 0 }.displayValid = false := by decide
theorem test_config_display_h : { Config.default with displayH := 0 }.displayValid = false := by decide
theorem test_config_font_length :
    { Config.default with font := [0xF0, 0x90] }.fontLengthValid = false := by decide
theorem test_build_refuses :
    build { Config.default with fontBase := 0xFC0 } = .refused .invalidConfiguration := by rfl

/-! ### Decoding: one word for every row, written out from the encodings of R58 and R67 -/

theorem test_decode_0 :
    decodeWord 0b0000000000000000 = .ok .nop ∧ decodeWord 0b0000000011100000 = .ok .cls ∧
    decodeWord 0b0000000011101110 = .ok .ret := by decide
theorem test_decode_A :
    decodeWord 0b0001101010111100 = .ok (.jp 0xABC) ∧ decodeWord 0b0010101010111100 = .ok (.call 0xABC) ∧
    decodeWord 0b1010000100100011 = .ok (.ldI 0x123) ∧
    decodeWord 0b1011001100000000 = .ok (.jpV0 0x300) := by decide
theorem test_decode_XK :
    decodeWord 0b0011010101000010 = .ok (.seImm 5 0x42) ∧ decodeWord 0b0100010101000010 = .ok (.sneImm 5 0x42) ∧
    decodeWord 0b0110101010011100 = .ok (.ldImm 0xA 0x9C) ∧ decodeWord 0b0111101011111111 = .ok (.addImm 0xA 0xFF) ∧
    decodeWord 0b1100001100001111 = .ok (.rnd 3 0x0F) := by decide
theorem test_decode_XY :
    decodeWord 0b0101010101100000 = .ok (.seReg 5 6) ∧ decodeWord 0b1001010101100000 = .ok (.sneReg 5 6) ∧
    decodeWord 0b1000101010110000 = .ok (.ldReg 0xA 0xB) ∧ decodeWord 0b1000101010110001 = .ok (.orReg 0xA 0xB) ∧
    decodeWord 0b1000101010110010 = .ok (.andReg 0xA 0xB) ∧ decodeWord 0b1000101010110011 = .ok (.xorReg 0xA 0xB) := by
  decide
theorem test_decode_XY' :
    decodeWord 0b1000101010110100 = .ok (.addReg 0xA 0xB) ∧ decodeWord 0b1000101010110101 = .ok (.sub 0xA 0xB) ∧
    decodeWord 0b1000101010110110 = .ok (.shr 0xA 0xB) ∧ decodeWord 0b1000101010110111 = .ok (.subn 0xA 0xB) ∧
    decodeWord 0b1000101010111110 = .ok (.shl 0xA 0xB) ∧ decodeWord 0b1101000100100101 = .ok (.drw 1 2 5) := by decide
theorem test_decode_XF :
    decodeWord 0b1110010110011110 = .ok (.skp 5) ∧ decodeWord 0b1110010110100001 = .ok (.sknp 5) ∧
    decodeWord 0b1111010100000111 = .ok (.ldVxDt 5) ∧ decodeWord 0b1111010100001010 = .ok (.ldVxK 5) ∧
    decodeWord 0b1111010100010101 = .ok (.ldDt 5) ∧ decodeWord 0b1111010100011000 = .ok (.ldSt 5) := by decide
theorem test_decode_XF' :
    decodeWord 0b1111010100011110 = .ok (.addI 5) ∧ decodeWord 0b1111010100101001 = .ok (.ldF 5) ∧
    decodeWord 0b1111010100110011 = .ok (.ldB 5) ∧ decodeWord 0b1111001001010101 = .ok (.ldMemVx 2) ∧
    decodeWord 0b1111001001100101 = .ok (.ldVxMem 2) := by decide
/-- ENC-2 to ENC-7, and a single byte. -/
theorem test_decode_unknown :
    decodeWord 0x0123 = .error .unknown0 ∧ decodeWord 0x00FE = .error .unknown0 ∧
    decodeWord 0x5121 = .error .unknown5 ∧ decodeWord 0x8008 = .error .unknown8 ∧
    decodeWord 0x9121 = .error .unknown9 ∧ decodeWord 0xE000 = .error .unknownE ∧
    decodeWord 0xFFFF = .error .unknownF ∧ decode [0x80] = .error .truncated := by decide
theorem test_decodeTableWord :
    decodeTableWord 16 0x8014 = some (.addReg 0 1) ∧ decodeTableWord 16 0x8008 = none := by decide
/-- The spellings of R73, an X other than 0 in BNNN and an unknown word among them. -/
theorem test_disassemble :
    disassemble false 0x6A02 = "LD VA, 0x02" ∧ disassemble false 0xB234 = "JP V0, 0x234 ; x=2" ∧
    disassemble true 0xB234 = "JP V2, 0x234" ∧ disassemble false 0x00FE = "DW 0x00FE" := by decide

/-! ### Steps: control flow -/

/-- ENC-1. -/
theorem test_nop : after false (fun t => (t.pc, t.out)) (word 0x0000) = some (0x202, ⟨true, false, none⟩) := by decide
/-- ENC-2. -/
theorem test_unknown : after false (fun t => (t.pc, t.out)) (word 0x0123) = some (0x202, ⟨true, false, some 0x0123⟩) := by
  decide
/-- ENC-8: the fetch needs 0xFFF and 0x1000. -/
theorem test_halt : after false (fun t => (t.pc, t.out.cont)) ((word 0).withPc 0xFFF) = some (0xFFF, false) := by decide
/-- ENC-9. -/
theorem test_last_fetch :
    after false (fun t => (t.pc, t.out.cont)) ((word 0).withPc 0xFFE) = some (0x1000, true) := by decide
/-- CF-1. -/
theorem test_jp : after false (fun t => t.pc) (word 0x1ABC) = some 0xABC := by decide
/-- CF-3. -/
theorem test_call :
    after false (fun t => (t.stack[15], t.sp, t.pc)) ((word 0x2ABC).withSp 15) = some (0x202, 16, 0xABC) := by decide
/-- CF-4. -/
theorem test_call_full :
    after false faultOutcome ((word 0x2ABC).withSp 16) = some (.stackOverflow, 0x200, 0x2ABC, 0x200, false) := by
  decide
/-- CF-5. -/
theorem test_ret :
    after false (fun t => (t.sp, t.pc, t.stack[0]))
      (((word 0x00EE).withSp 1).withStack ((word 0).stack.set 0 0x234)) = some (0, 0x234, 0x234) := by decide
/-- CF-6 and KT-17: no timer update in a step that faults. -/
theorem test_ret_empty :
    after true (fun t => (faultOutcome t, t.dt)) ((word 0x00EE).withDt 5) =
      some ((.stackUnderflow, 0x200, 0x00EE, 0x200, false), 5) := by decide
/-- CF-7, CF-8. -/
theorem test_seImm :
    after false (fun t => t.pc) (regs [(5, 0x42)] (word 0x3542)) = some 0x204 ∧
    after false (fun t => t.pc) (regs [(5, 0x41)] (word 0x3542)) = some 0x202 := by decide
/-- CF-9, CF-10. -/
theorem test_sneImm :
    after false (fun t => t.pc) (regs [(5, 0x42)] (word 0x4542)) = some 0x202 ∧
    after false (fun t => t.pc) (regs [(5, 0x41)] (word 0x4542)) = some 0x204 := by decide
/-- CF-11, CF-12. -/
theorem test_seReg :
    after false (fun t => t.pc) (regs [(5, 9), (6, 9)] (word 0x5560)) = some 0x204 ∧
    after false (fun t => t.pc) (regs [(5, 9), (6, 8)] (word 0x5560)) = some 0x202 := by decide
/-- CF-13, CF-14. -/
theorem test_sneReg :
    after false (fun t => t.pc) (regs [(5, 9), (6, 9)] (word 0x9560)) = some 0x202 ∧
    after false (fun t => t.pc) (regs [(5, 9), (6, 8)] (word 0x9560)) = some 0x204 := by decide
/-- CF-15, CF-17. -/
theorem test_jpV0 :
    after false (fun t => t.pc) (regs [(0, 0x10), (3, 0x20)] (word 0xB300)) = some 0x310 ∧
    after false (fun t => t.pc) (regs [(0, 0xFF)] (word 0xBFFF)) = some 0x10FE := by decide
/-- CF-16. -/
theorem test_jpV0_quirk :
    after false (fun t => t.pc) (quirky (fun c => { c with quirkJumpVx := true })
      (regs [(0, 0x10), (3, 0x20)] (word 0xB300))) = some 0x320 := by decide

/-! ### Steps: registers -/

/-- ALU-1. -/
theorem test_ldImm : after false (fun t => t.getV 0xA) (word 0x6A9C) = some 0x9C := by decide
/-- ALU-2, ALU-3. -/
theorem test_addImm :
    after false (fun t => (t.getV 0xA, t.getV VF)) (regs [(0xA, 2), (VF, 7)] (word 0x7AFF)) = some (1, 7) ∧
    after false (fun t => t.getV VF) (regs [(VF, 0xFF)] (word 0x7F01)) = some 0 := by decide
/-- ALU-4. -/
theorem test_ldReg : after false (fun t => t.getV 0xA) (regs [(0xB, 0x42)] (word 0x8AB0)) = some 0x42 := by decide
/-- ALU-5. -/
theorem test_orReg :
    after false (fun t => (t.getV 0, t.getV VF)) (regs [(0, 0xF0), (1, 0x0F), (VF, 0x55)] (word 0x8011)) =
      some (0xFF, 0x55) := by decide
/-- ALU-6. -/
theorem test_andReg :
    after false (fun t => t.getV 0) (regs [(0, 0xF0), (1, 0x3C)] (word 0x8012)) = some 0x30 := by decide
/-- ALU-7, ALU-8. -/
theorem test_xorReg :
    after false (fun t => t.getV 0) (regs [(0, 0xF0), (1, 0x3C)] (word 0x8013)) = some 0xCC ∧
    after false (fun t => t.getV 3) (regs [(3, 0xAB)] (word 0x8333)) = some 0 := by decide
/-- ALU-9. -/
theorem test_addReg :
    after false (fun t => (t.getV 0, t.getV VF)) (regs [(0, 0xFF), (1, 1)] (word 0x8014)) = some (0, 1) := by decide
/-- ALU-10, ALU-11: the flag wins. -/
theorem test_addReg_VF :
    after false (fun t => t.getV VF) (regs [(VF, 0xFF), (1, 1)] (word 0x8F14)) = some 1 ∧
    after false (fun t => t.getV VF) (regs [(VF, 0x10), (1, 1)] (word 0x8F14)) = some 0 := by decide
/-- L1.5, ALU-12. -/
theorem test_sub :
    after false (fun t => (t.getV 0, t.getV VF)) (regs [(0, 3), (1, 5)] (word 0x8015)) = some (0xFE, 0) ∧
    after false (fun t => (t.getV 0, t.getV VF)) (regs [(0, 7), (1, 7)] (word 0x8015)) = some (0, 1) := by decide
/-- ALU-13. -/
theorem test_sub_VF : after false (fun t => t.getV VF) (regs [(VF, 3), (1, 5)] (word 0x8F15)) = some 0 := by decide
/-- ALU-14, ALU-15. -/
theorem test_subn :
    after false (fun t => (t.getV 0, t.getV VF)) (regs [(0, 3), (1, 5)] (word 0x8017)) = some (2, 1) ∧
    after false (fun t => (t.getV 0, t.getV VF)) (regs [(0, 5), (1, 3)] (word 0x8017)) = some (0xFE, 0) := by decide
/-- ALU-17, ALU-18: the flag first, then VF >> 1. -/
theorem test_shr :
    after false (fun t => (t.getV 5, t.getV VF)) (regs [(5, 0x0B)] (word 0x8506)) = some (5, 1) ∧
    after false (fun t => t.getV VF) (regs [(VF, 0xFF)] (word 0x8F06)) = some 0 := by decide
/-- ALU-19, ALU-20. -/
theorem test_shr_quirk :
    after false (fun t => (t.getV 5, t.getV VF)) (quirky (fun c => { c with quirkShiftVy := true })
      (regs [(5, 0x0B), (1, 0x81)] (word 0x8516))) = some (0x40, 1) ∧
    after false (fun t => t.getV VF) (quirky (fun c => { c with quirkShiftVy := true })
      (regs [(1, 0x81)] (word 0x8F16))) = some 0x40 := by decide
/-- ALU-21, ALU-22. -/
theorem test_shl :
    after false (fun t => (t.getV 5, t.getV VF)) (regs [(5, 0x81)] (word 0x850E)) = some (2, 1) ∧
    after false (fun t => t.getV VF) (regs [(VF, 0xFF)] (word 0x8F0E)) = some 2 := by decide
/-- ALU-24. -/
theorem test_shl_quirk :
    after false (fun t => (t.getV 5, t.getV VF)) (quirky (fun c => { c with quirkShiftVy := true })
      (regs [(5, 1), (1, 0xC0)] (word 0x851E))) = some (0x80, 1) := by decide
/-- RND-2, RND-3: the generator advances even when KK = 0. -/
theorem test_rnd :
    after false (fun t => (t.rng, t.getV 3)) ((word 0xC30F).withRng 1) = some (0x00042021, 1) ∧
    after false (fun t => (t.rng, t.getV 3)) ((word 0xC300).withRng 0x12345678) = some (0x87985AA5, 0) := by decide
/-- RND-5. -/
theorem test_rnd_draw :
    after false (fun t => (t.rng, t.getV 3, t.draws)) (quirky (fun c => { c with rngMode := .draw })
      (((word 0xC30F).withRng 1).supplyDraws [0xAB])) = some (1, 0x0B, []) := by decide

/-! ### Steps: the display -/

/-- DRW-9. -/
theorem test_cls :
    after false (fun t => (cells [(0, 0), (31, 63)] t, t.getV VF))
      (regs [(VF, 7)] (lit [(0, 0), (31, 63)] (word 0x00E0))) = some ([false, false], 7) := by decide
/-- DRW-2 (row wrap), DRW-1 (column wrap) and DRW-4 (collision) in one: the rows C0 80 at (63, 31). -/
theorem test_drw :
    after false (fun t => (cells [(31, 63), (31, 0), (0, 63), (0, 0)] t, t.getV VF))
      (lit [(31, 0)] (bytes 0x300 [0xC0, 0x80] (regs [(0, 0x3F), (1, 0x1F)] ((word 0xD012).withI 0x300)))) =
      some ([true, false, true, false], 1) := by decide
/-- DRW-7. -/
theorem test_drw_fault :
    after false (fun t => (faultOutcome t, t.getV VF)) (regs [(VF, 7)] ((word 0xD012).withI 0xFFF)) =
      some ((.dataAddress, 0x200, 0xD012, 0x200, false), 7) := by decide

/-! ### Steps: I and memory -/

/-- IM-1. -/
theorem test_ldI : after false (fun t => t.ireg) (word 0xA123) = some 0x123 := by decide
/-- IM-2, IM-3. -/
theorem test_addI :
    after false (fun t => (t.ireg, t.getV VF)) (regs [(5, 1), (VF, 9)] ((word 0xF51E).withI 0xFFF)) =
      some (0x1000, 9) ∧
    after false (fun t => t.ireg) (regs [(5, 2)] ((word 0xF51E).withI 0xFFFF)) = some 1 := by decide
/-- IM-5, IM-6. -/
theorem test_ldF :
    after false (fun t => t.ireg) (regs [(5, 0x1A)] (word 0xF529)) = some 0xD2 ∧
    after false (fun t => t.ireg) (quirky (fun c => { c with quirkFontMask := true })
      (regs [(5, 0x1A)] (word 0xF529))) = some 0x82 := by decide
/-- IM-7. -/
theorem test_ldB :
    after false (fun t => (t.readByte 0x300, t.readByte 0x301, t.readByte 0x302))
      (regs [(5, 0xFE)] ((word 0xF533).withI 0x300)) = some (2, 5, 4) := by decide
/-- IM-10. -/
theorem test_ldB_fault :
    after false faultOutcome ((word 0xF533).withI 0xFFE) = some (.dataAddress, 0x200, 0xF533, 0x200, false) := by decide
/-- IM-12. -/
theorem test_ldMemVx :
    after false (fun t => ((t.readByte 0x400, t.readByte 0x401, t.readByte 0x402, t.readByte 0x403), t.ireg))
      (quirky (fun c => { c with quirkLsIncrement := true })
        (regs [(0, 0x11), (1, 0x22), (2, 0x33), (3, 0x44)] ((word 0xF255).withI 0x400))) =
      some ((0x11, 0x22, 0x33, 0), 0x403) := by decide
/-- IM-14. -/
theorem test_ldMemVx_fault :
    after false (fun t => (faultOutcome t, t.readByte 0xFFF)) (regs [(0, 0x5A)] ((word 0xF155).withI 0xFFF)) =
      some ((.dataAddress, 0x200, 0xF155, 0x200, false), 0) := by decide
/-- IM-15. -/
theorem test_ldVxMem :
    after false (fun t => (t.getV 0, t.getV 1, t.getV 2, t.getV 3, t.ireg)) ((word 0xF265).withI 0x50) =
      some (0xF0, 0x90, 0x90, 0, 0x50) := by decide

/-! ### Steps: keys and timers -/

/-- KT-1, KT-2. -/
theorem test_skp :
    after false (fun t => t.pc) (press [7] (regs [(5, 7)] (word 0xE59E))) = some 0x204 ∧
    after false (fun t => t.pc) (regs [(5, 7)] (word 0xE59E)) = some 0x202 := by decide
/-- KT-5. -/
theorem test_skp_fault :
    after false faultOutcome (regs [(5, 0x10)] (word 0xE59E)) = some (.keyIndex, 0x200, 0xE59E, 0x200, false) := by
  decide
/-- KT-3, KT-4. -/
theorem test_sknp :
    after false (fun t => t.pc) (press [7] (regs [(5, 7)] (word 0xE5A1))) = some 0x202 ∧
    after false (fun t => t.pc) (regs [(5, 7)] (word 0xE5A1)) = some 0x204 := by decide
/-- KT-7: read before the update. -/
theorem test_ldVxDt :
    after true (fun t => (t.getV 5, t.dt)) ((word 0xF507).withDt 0x3C) = some (0x3C, 0x3B) := by decide
/-- KT-8. -/
theorem test_ldVxK :
    after false (fun t => (t.getV 5, t.pc)) (press [3, 0xC] (word 0xF50A)) = some (3, 0x202) := by decide
/-- KT-10. -/
theorem test_ldVxK_wait :
    after true (fun t => (t.pc, t.dt, t.out.cont)) ((word 0xF50A).withDt 2) = some (0x200, 1, true) := by decide
/-- KT-12. -/
theorem test_ldDt : after true (fun t => t.dt) (regs [(5, 9)] (word 0xF515)) = some 8 := by decide
/-- KT-14. -/
theorem test_ldSt :
    after true (fun t => (t.st, t.out.beep, t.soundOn)) (regs [(5, 2)] (word 0xF518)) = some (1, true, true) := by
  decide
/-- KT-15, KT-16. -/
theorem test_timers :
    after true (fun t => (t.dt, t.st, t.out.beep)) ((word 0).withSt 1) = some (0, 0, true) ∧
    after true (fun t => (t.dt, t.st, t.out.beep)) (word 0) = some (0, 0, false) := by decide

/-! ### Steps: the faulted state and the host -/

/-- FT-1. -/
theorem test_faulted :
    after true (fun t => (faultOutcome t, t.dt)) ((((word 0).withFault .stackOverflow 0x200 0x2ABC)).withDt 5) =
      some ((.stackOverflow, 0x200, 0x2ABC, 0x200, false), 5) := by decide
/-- FT-3. -/
theorem test_rebuild : ((word 0x2ABC).withFault .stackOverflow 0x200 0x2ABC).rebuild = State.reset := by decide
/-- HO-1. -/
theorem test_load :
    ((State.reset.loadProgram [0x12, 0x34]).1, (State.reset.loadProgram [0x12, 0x34]).2.readByte 0x200,
      (State.reset.loadProgram [0x12, 0x34]).2.readByte 0x201) = (.ok, 0x12, 0x34) := by decide
/-- HO-2. -/
theorem test_load_too_large :
    (State.reset.loadProgram (List.replicate 3585 0)).1 = .programTooLarge := by
  have h : State.reset.cfg.memSize - State.reset.cfg.programStart < (List.replicate 3585 (0 : Byte)).length := by
    rw [List.length_replicate]; decide
  rw [State.loadProgram, if_pos h]
/-- R26: the fault port. -/
theorem test_readFault :
    ((word 0).withFault .keyIndex 0x200 0xE59E).readFault = (4, 0x200, 0xE59E) := by decide
/-- The instruction that `withFetchWord` places is the next one to run, after reset. -/
theorem test_withFetchWord :
    (match step (State.reset.withFetchWord 16 0x6A9C) with
      | .next t => t.getV 0xA
      | _ => 0) = 0x9C := by rfl
/-- A write of the reset content leaves nothing listed (20_memory.md; the canonical form). -/
theorem test_memory_canonical :
    ((State.reset.writeByte 0x300 7).writeByte 0x300 0).mem = [] ∧
    (State.reset.writeByte 0x50 0xF0).mem = [] := by decide

/-! ### Witnesses: the hypotheses of the statements, met together -/

/-- Every row's own match value meets the hypothesis of its encoding clause. -/
theorem witness_Encodes :
    (opcodeRows.all fun r => Nat.beq (Nat.land r.2.toNat r.1.toNat) r.2.toNat) = true := rfl
theorem witness_EncodeInvertsDecode : decode [0x80, 0x14, 0xFF] = .ok (.addReg 0 1, [0xFF]) := by decide
theorem witness_DecodeFollowsOpcodeMap :
    decodeWord 0x8014 = .ok (.addReg 0 1) ∧ decodeWord 0x8008 = .error .unknown8 ∧
    ((0xF00F, 0x8004) : Word × Word) ∈ opcodeRows ∧ (0x8014 : Word) &&& 0xF00F = 0x8004 := by decide

theorem witness_StepRunsDecodedInstruction :
    (word 0x8014).fault = .none ∧ (word 0x8014).pc.toNat + 1 < (word 0x8014).cfg.memSize ∧
    decode [(word 0x8014).readByte 0x200, (word 0x8014).readByte 0x201] = .ok (.addReg 0 1, []) ∧
    (word 0x8014).pc.toNat = 0x200 ∧
    (∃ t, exec (.addReg 0 1) { word 0x8014 with pc := 0x202, out := ⟨false, false, none⟩ } = .next t) ∧
    ((word 0).supplyTicks [true]).ticks = [true] ∧ (word 0).ticks = [] :=
  ⟨by decide, by decide, by decide, by decide, ⟨_, rfl⟩, by decide, by decide⟩
theorem witness_UnknownWordIsObservableNoOp :
    (word 0x0123).Running ∧ decodeWord (word 0x0123).fetchWord = .error .unknown0 := by decide
theorem witness_FetchOutOfBoundsHalts :
    ((word 0).withPc 0xFFF).fault = .none ∧
    ((word 0).withPc 0xFFF).cfg.memSize ≤ ((word 0).withPc 0xFFF).pc.toNat + 1 := by decide
theorem witness_FaultedEngineIsQuiescent : ((word 0).withFault .keyIndex 0x200 0xE59E).fault ≠ .none := by decide
theorem witness_FaultEntryIsPrecise :
    (word 0x00EE).fault = .none ∧ ∃ t, stepTick true (word 0x00EE) = .next t ∧ t.fault ≠ .none :=
  ⟨by decide, _, rfl, by decide⟩
theorem witness_StepFaultsAsTabled :
    (word 0x00EE).Running ∧ decodeWord (word 0x00EE).fetchWord = .ok .ret ∧
    faultOf .ret (word 0x00EE) = .stackUnderflow ∧
    ((word 0x00EE).withSp 1).Running ∧ decodeWord ((word 0x00EE).withSp 1).fetchWord = .ok .ret ∧
    faultOf .ret ((word 0x00EE).withSp 1) = .none ∧
    (word 0x8008).Running ∧ decodeWord (word 0x8008).fetchWord = .error .unknown8 := by decide
/-- A step that goes on, one that halts and one that faults. -/
theorem witness_ContAndRunEnd :
    (∃ t, stepTick false (word 0) = .next t ∧ t.out.cont = true) ∧
    (∃ t, stepTick false ((word 0).withPc 0xFFF) = .next t ∧ t.runEnd = some .halt) ∧
    (∃ t, stepTick false (word 0x00EE) = .next t ∧ t.runEnd = some .fault) :=
  ⟨⟨_, rfl, by decide⟩, ⟨_, rfl, by decide⟩, ⟨_, rfl, by decide⟩⟩
theorem witness_TimersFollowTicks :
    (∃ t, stepTick true ((word 0).withSt 1) = .next t ∧ t.out.cont = true ∧ t.out.beep = true) ∧
    (∃ t, stepTick true ((word 0x00EE).withSt 1) = .next t ∧ t.out.cont = false) :=
  ⟨⟨_, rfl, by decide, by decide⟩, ⟨_, rfl, by decide⟩⟩
theorem word_inv (w : Nat) (h : Memory.wf Config.default (word w).mem) : (word w).Inv := by
  have e : word w = State.reset.withMem (word w).mem := State.writeBytes_eq _ _ _
  rw [e]; exact ⟨(by decide : Config.default.valid = true), h, Display.sized_blank _ _, fun _ => ⟨rfl, rfl⟩, fun h => absurd rfl h⟩
theorem witness_StepKeepsInvariant :
    (word 0x2ABC).Inv ∧ ∃ t, step (word 0x2ABC) = .next t := ⟨word_inv _ (by decide), _, rfl⟩
theorem witness_HostMovesKeepInvariant : State.reset.Inv := by decide
theorem witness_BuildRefusesInvalidConfigurations :
    (let c := { Config.default with programStart := 4096, fontBase := 0xFB0 }
     1 ≤ c.memSize ∧ c.memSize ≤ 65536 ∧ c.programStart ≤ c.memSize ∧ c.fontBase + 80 ≤ c.memSize ∧
       1 ≤ c.displayW ∧ 1 ≤ c.displayH ∧ c.font.length = 80) ∧
    ¬ ({ Config.default with fontBase := 0xFB1 }.fontBase + 80 ≤ { Config.default with fontBase := 0xFB1 }.memSize) := by
  decide
theorem witness_ConstructionResetValues :
    (∃ t, build Config.default = .next t) ∧ 79 < 80 ∧ 0x4F < Config.default.fontBase ∧
    Config.default.fontBase + 80 ≤ 0xA0 := ⟨⟨_, rfl⟩, by decide, by decide, by decide⟩
/-- L1.1: 3584 bytes fit, 3585 do not; the last byte written and the first one before the window. -/
theorem witness_LoadProgramWritesItsWindow :
    State.reset.Inv ∧ State.reset.cfg.memSize - State.reset.cfg.programStart = 3584 ∧
    (List.replicate 3584 (0 : Byte)).length = 3584 ∧ (List.replicate 3585 (0 : Byte)).length = 3585 ∧
    0x1FF < State.reset.cfg.programStart ∧ State.reset.cfg.programStart + 3584 ≤ 4096 :=
  ⟨by decide, by decide, List.length_replicate, List.length_replicate, by decide, by decide⟩

/-- The sprite row 0x80 at I = 0xFFF, the last address. -/
def sprite : State := bytes 0xFFF [0x80] (State.reset.withI 0xFFF)
/-- With the cell under it lit, and not lit. -/
theorem witness_DrwXorsTheSprite :
    sprite.Inv ∧ (∀ k < (1 : BitVec 4).toNat, sprite.ireg.toNat + k < sprite.cfg.memSize) ∧
    sprite.bitsOn 0 1 1 0 0 = 1 ∧ sprite.bitsOn 0 1 1 0 1 = 0 ∧ sprite.disp.get 0 0 = false ∧
    (lit [(0, 0)] sprite).Inv ∧ (lit [(0, 0)] sprite).disp.get 0 0 = true ∧
    (lit [(0, 0)] sprite).bitsOn 0 1 1 0 0 = 1 := by decide
/-- An 8-column sprite on a display 7 cells wide hits a cell twice. -/
theorem witness_DrwXorsTheSprite_twice :
    (quirky (fun c => { c with displayW := 7 }) (bytes 0x300 [0x81] ((word 0xD011).withI 0x300))).bitsOn 0 1 1 0 0 = 2 := by
  decide
theorem witness_DrawingTwiceRestoresDisplay :
    (0 : Reg) ≠ VF ∧ (1 : Reg) ≠ VF ∧
    (∀ k < (5 : BitVec 4).toNat, ((word 0).withI 0x50).ireg.toNat + k < ((word 0).withI 0x50).cfg.memSize) ∧
    ∃ t, exec (.drw 0 1 5) ((word 0).withI 0x50) = .next t := ⟨by decide, by decide, by decide, _, rfl⟩
theorem witness_SecondDrawCollides :
    sprite.Inv ∧ (0 : Reg) ≠ VF ∧ (1 : Reg) ≠ VF ∧ (∀ y x, sprite.disp.get y x = false) ∧
    (∀ k < (1 : BitVec 4).toNat, sprite.ireg.toNat + k < sprite.cfg.memSize) ∧
    (∃ k < (1 : BitVec 4).toNat, sprite.readByte (sprite.ireg.toNat + k) ≠ 0) ∧
    ∃ t, exec (.drw 0 1 1) sprite = .next t :=
  ⟨by decide, by decide, by decide, Display.get_blank 64 32, by decide, by decide, _, rfl⟩

theorem witness_JumpsSetPc :
    (3 : Reg).val = (0x3AB : BitVec 12).toNat / 256 ∧ (word 0).cfg.quirkJumpVx = false ∧
    (quirky (fun c => { c with quirkJumpVx := true }) (word 0)).cfg.quirkJumpVx = true := by decide
theorem witness_CallPushesAndJumps :
    (word 0).sp.val < 16 ∧ ((word 0).withSp 15).sp.val < 16 ∧ ((word 0).withSp 16).sp.val = 16 ∧
    (0x2ABC : Word) &&& 0xF000 = 0x2000 := by decide
theorem witness_RetPopsIntoPc :
    (word 0).sp.val = 0 ∧
    ((word 0).withSp 1).sp.val = (0 : Fin 16).val + 1 ∧ ((word 0).withSp 16).sp.val = (15 : Fin 16).val + 1 := by decide
theorem witness_CallThenRetReturns :
    (word 0).sp.val < 16 ∧ ∃ t, exec (.call 0x300) (word 0) = .next t ∧
      ((word 0x00EE).withSp t.sp).withStack t.stack ≠ t ∧
      (((word 0x00EE).withSp t.sp).withStack t.stack).sp = t.sp ∧
      (((word 0x00EE).withSp t.sp).withStack t.stack).stack = t.stack :=
  ⟨by decide, _, rfl, fun h => absurd (congrArg State.pc h) (by decide), rfl, rfl⟩
theorem witness_quirkShiftVy :
    (word 0).cfg.quirkShiftVy = false ∧
    (quirky (fun c => { c with quirkShiftVy := true }) (word 0)).cfg.quirkShiftVy = true := by decide
theorem witness_RndAdvancesTheGenerator : (word 0).cfg.rngMode = .xorshift32 := by decide
theorem witness_RndTakesADrawnByte :
    (quirky (fun c => { c with rngMode := .draw }) (word 0)).cfg.rngMode = .draw ∧
    (quirky (fun c => { c with rngMode := .draw }) ((word 0).supplyDraws [7])).draws = [7] ∧
    (quirky (fun c => { c with rngMode := .draw }) (word 0)).draws = [] := by decide

theorem witness_LdBStoresThreeDigits :
    Memory.wf ((word 0xF533).withI 0xFFD).cfg ((word 0xF533).withI 0xFFD).mem ∧
    ((word 0xF533).withI 0xFFD).ireg.toNat + 2 < ((word 0xF533).withI 0xFFD).cfg.memSize := by decide
theorem witness_LdMemVxStoresRegisters :
    Memory.wf ((word 0xFF55).withI 0xFF0).cfg ((word 0xFF55).withI 0xFF0).mem ∧
    ((word 0xFF55).withI 0xFF0).ireg.toNat + (15 : Reg).val < ((word 0xFF55).withI 0xFF0).cfg.memSize := by decide
theorem witness_LdVxMemLoadsRegisters :
    ((word 0xFF65).withI 0xFF0).ireg.toNat + (15 : Reg).val < ((word 0xFF65).withI 0xFF0).cfg.memSize := by decide
theorem witness_StoreThenLoadRoundTrips :
    Memory.wf ((word 0xF055).withI 0xFFF).cfg ((word 0xF055).withI 0xFFF).mem ∧
    ((word 0xF055).withI 0xFFF).ireg.toNat + (0 : Reg).val < ((word 0xF055).withI 0xFFF).cfg.memSize ∧
    ∃ t, exec (.ldMemVx 0) ((word 0xF055).withI 0xFFF) = .next t ∧ (t.setV 0 7).cfg = t.cfg ∧
      (t.setV 0 7).mem = t.mem ∧ (t.setV 0 7).ireg = 0xFFF :=
  ⟨by decide, by decide, _, rfl, rfl, rfl, rfl⟩
/-- The fault clauses of DRW, LD_B, LD_MEM_VX and LD_VX_MEM at the first address that does not exist. -/
theorem witness_data_address_clauses :
    (∃ k < (2 : BitVec 4).toNat, ((word 0).withI 0xFFF).cfg.memSize = ((word 0).withI 0xFFF).ireg.toNat + k) ∧
    ((word 0).withI 0xFFE).cfg.memSize = ((word 0).withI 0xFFE).ireg.toNat + 2 ∧
    ((word 0).withI 0xFF1).cfg.memSize = ((word 0).withI 0xFF1).ireg.toNat + (15 : Reg).val :=
  ⟨⟨1, by decide, by decide⟩, by decide, by decide⟩
theorem witness_StoresAreFetched :
    let s := (word 0xF155).withI 0x200
    Memory.wf s.cfg s.mem ∧ 1 ≤ (1 : Reg).val ∧ s.ireg = s.pc ∧ s.ireg.toNat + (1 : Reg).val < s.cfg.memSize ∧
    ∃ t, exec (.ldMemVx 1) s = .next t := ⟨by decide, by decide, by decide, by decide, _, rfl⟩

theorem witness_KeySkips :
    ((regs [(5, 15)] (word 0)).getV 5).toNat = (15 : Fin 16).val ∧ ((word 0).getV 5).toNat = (0 : Fin 16).val ∧
    (press [15] (word 0)).keys[(15 : Fin 16)] = true ∧ (word 0).keys[(15 : Fin 16)] = false ∧
    15 < ((regs [(5, 16)] (word 0)).getV 5).toNat := by decide
theorem witness_KeyWaitTakesLowestKey :
    (press [3, 12] (word 0)).keys[(3 : Fin 16)] = true ∧
    (∀ j : Fin 16, j < 3 → (press [3, 12] (word 0)).keys[j] = false) ∧
    (∀ k : Fin 16, (word 0xF50A).keys[k] = false) ∧
    (word 0xF50A).Running ∧ decodeWord (word 0xF50A).fetchWord = .ok (.ldVxK 5) := by decide

/-- A step of an instruction that writes the field, for the clauses' hypotheses. -/
def writes {α : Type} [DecidableEq α] (i : Instr) (f : State → α) (s : State) : Bool :=
  match exec i s with
  | .next t => !(decide (f t = f s))
  | .fault _ => false
  | .refused _ => false
theorem witness_StateHasOnlyItsNamedWriters :
    writes (.ldImm 3 7) (fun t => t.getV 3) (word 0) ∧ writes (.jp 0x300) (fun t => t.pc) (word 0) ∧
    writes .ret (fun t => t.pc) (word 0) ∧ writes (.ldI 0x300) (fun t => t.ireg) (word 0) ∧
    writes (.call 0x300) (fun t => (t.sp, t.stack)) (word 0) ∧
    writes (.ldDt 5) (fun t => t.dt) (regs [(5, 9)] (word 0)) ∧
    writes (.ldSt 5) (fun t => t.st) (regs [(5, 9)] (word 0)) ∧
    writes (.drw 0 1 5) (fun t => t.disp.get 0 0) ((word 0).withI 0x50) ∧
    writes (.ldB 5) (fun t => t.mem) ((regs [(5, 9)] (word 0)).withI 0x300) ∧
    writes (.rnd 3 0xFF) (fun t => t.rng) ((word 0).withRng 1) ∧
    writes (.rnd 3 0xFF) (fun t => t.draws)
      (quirky (fun c => { c with rngMode := .draw }) ((word 0).supplyDraws [7])) ∧
    writes (.rnd 3 0xFF) (fun t => t.freeCount) (quirky (fun c => { c with rngMode := .draw }) (word 0)) ∧
    writes .ret (fun t => t.fault) (word 0) := by decide

/-- Two states that differ in a dead slot, and are not equal. -/
theorem witness_DeadStackSlotsAreUnobservable :
    SameUpToDeadSlots ((word 0).withSp 1) (((word 0).withSp 1).withStack ((word 0).stack.set 1 0x300)) ∧
    (word 0).stack.set 1 0x300 ≠ (word 0).stack := by
  refine ⟨⟨rfl, fun j h hj => ?_⟩, by decide⟩
  have hj' : j < 1 := hj
  have : j = 0 := by omega
  subst this; rfl

end Sys2Proof.Tests
end

/-! ## Encoding: the decoder against the encoder and the opcode map -/

namespace Sys2Proof.Laws

/-! ### What decodes is the encoding of what it decodes to -/

theorem encodeWord_of_decode0 (w : Word) (i : Instr) (hop : fieldOp w = 0x0) (h : decode0 w = .ok i) :
    encodeWord i = w := by
  have hw (nnn : BitVec 12) (hn : (fieldNNN w).toNat = nnn.toNat) : encA 0x0 nnn = w := by
    rw [← BitVec.eq_of_toNat_eq hn]
    exact word_eq_encA w 0x0 hop
  unfold decode0 at h
  split at h <;> cases h
  case h_1 hn => exact hw 0x000 hn
  case h_2 hn => exact hw 0x0E0 hn
  case h_3 hn => exact hw 0x0EE hn

theorem encodeWord_of_decode8 (w : Word) (i : Instr) (hop : fieldOp w = 0x8) (h : decode8 w = .ok i) :
    encodeWord i = w := by
  unfold decode8 at h
  split at h <;> cases h
  all_goals exact word_eq_encXYN w 0x8 _ hop ‹_›

theorem encodeWord_of_decodeE (w : Word) (i : Instr) (hop : fieldOp w = 0xE) (h : decodeE w = .ok i) :
    encodeWord i = w := by
  unfold decodeE at h
  split at h <;> cases h
  all_goals exact word_eq_encXK w 0xE _ hop ‹_›

theorem encodeWord_of_decodeF (w : Word) (i : Instr) (hop : fieldOp w = 0xF) (h : decodeF w = .ok i) :
    encodeWord i = w := by
  unfold decodeF at h
  split at h <;> cases h
  all_goals exact word_eq_encXK w 0xF _ hop ‹_›

theorem requireN0_eq_ok (w : Word) (i j : Instr) (r : Reject) :
    requireN0 w i r = .ok j ↔ fieldN w = 0 ∧ i = j := by
  by_cases hn : fieldN w = 0 <;>
    simp only [requireN0, hn, if_true, if_false, true_and, false_and, Except.ok.injEq, reduceCtorEq]

/-- Encoding gives a decoded word back: its fixed bits stand where the decoder looked for them, and its
operands are its own fields. -/
theorem encodeWord_of_decodeWord (w : Word) (i : Instr) (h : decodeWord w = .ok i) : encodeWord i = w := by
  have hlt : fieldOp w < 16 := (w.extractLsb' 12 4).isLt
  unfold decodeWord at h
  split at h
  case h_1 hop => exact encodeWord_of_decode0 w i hop h
  case h_6 hop | h_10 hop =>
    obtain ⟨hn, rfl⟩ := (requireN0_eq_ok w _ i _).mp h
    exact word_eq_encXYN w _ 0x0 hop (congrArg BitVec.toNat hn)
  case h_9 hop => exact encodeWord_of_decode8 w i hop h
  case h_15 hop => exact encodeWord_of_decodeE w i hop h
  case h_16 =>
    have hop : fieldOp w = 0xF := by simp only [imp_false] at *; omega
    exact encodeWord_of_decodeF w i hop h
  case h_14 hop => cases h; exact word_eq_encXYN w 0xD _ hop rfl
  case h_2 hop | h_3 hop | h_11 hop | h_12 hop => cases h; exact word_eq_encA w _ hop
  case h_4 hop | h_5 hop | h_7 hop | h_8 hop | h_13 hop => cases h; exact word_eq_encXK w _ _ hop rfl

/-! ### The opcode map (30_encoding.md R65, R67) -/

theorem rowMaskMatch_mem_opcodeRows (i : Instr) : rowMaskMatch i ∈ opcodeRows := by
  cases i <;> simp [rowMaskMatch, opcodeRows]

/-- A word of two rows agrees with both on the bits both fix, and the table holds no such pair of rows. -/
theorem opcodeRows_disjoint (w : Word) (r q : Word × Word) (hr : r ∈ opcodeRows) (hq : q ∈ opcodeRows)
    (hwr : w &&& r.1 = r.2) (hwq : w &&& q.1 = q.2) : r = q := by
  have hagree : r.2 &&& q.1 = q.2 &&& r.1 := by
    rw [← hwr, ← hwq, BitVec.and_assoc, BitVec.and_comm r.1, BitVec.and_assoc]
  have hland : Nat.land r.2.toNat q.1.toNat = Nat.land q.2.toNat r.1.toNat := congrArg BitVec.toNat hagree
  have hcheck := List.all_eq_true.mp (List.all_eq_true.mp opcodeRows_check r hr) q hq
  simp only [hland, bne_self_eq_false, Bool.false_or, Bool.and_eq_true] at hcheck
  obtain ⟨hmask, hmatch⟩ := hcheck
  exact Prod.ext (BitVec.eq_of_toNat_eq (Nat.eq_of_beq_eq_true hmask))
    (BitVec.eq_of_toNat_eq (Nat.eq_of_beq_eq_true hmatch))

open EncodeFixed in
/-- The word of an instruction has the fixed bits of the instruction's row: the 35 EncodeFixed laws, in the order of
the constructors. -/
theorem encodeWord_and_mask (i : Instr) : encodeWord i &&& (rowMaskMatch i).1 = (rowMaskMatch i).2 :=
  Instr.rec (motive := Statement) nop cls ret jp call seImm sneImm seReg ldImm addImm ldReg orReg andReg xorReg
    addReg sub shr subn shl sneReg ldI jpV0 rnd drw skp sknp ldVxDt ldVxK ldDt ldSt addI ldF ldB ldMemVx ldVxMem i

theorem decodeWord_matches_row (w : Word) (i : Instr) (h : decodeWord w = .ok i) :
    w &&& (rowMaskMatch i).1 = (rowMaskMatch i).2 := by
  rw [← encodeWord_of_decodeWord w i h]
  exact encodeWord_and_mask i

/-- A word of any row decodes: one entry per row, in the map's order. -/
theorem decodeWord_of_opcodeRow (w : Word) :
    ∀ r ∈ opcodeRows, w &&& r.1 = r.2 → ∃ i, decodeWord w = .ok i := by
  simp only [opcodeRows, List.cons_append, List.nil_append, List.forall_mem_cons]
  exact ⟨fun h => ⟨_, row_nop w h⟩, fun h => ⟨_, row_cls w h⟩, fun h => ⟨_, row_ret w h⟩,
    fun h => ⟨_, row_jp w h⟩, fun h => ⟨_, row_call w h⟩, fun h => ⟨_, row_seImm w h⟩,
    fun h => ⟨_, row_sneImm w h⟩, fun h => ⟨_, row_seReg w h⟩, fun h => ⟨_, row_ldImm w h⟩,
    fun h => ⟨_, row_addImm w h⟩, fun h => ⟨_, row_ldReg w h⟩, fun h => ⟨_, row_orReg w h⟩,
    fun h => ⟨_, row_andReg w h⟩, fun h => ⟨_, row_xorReg w h⟩, fun h => ⟨_, row_addReg w h⟩,
    fun h => ⟨_, row_sub w h⟩, fun h => ⟨_, row_shr w h⟩, fun h => ⟨_, row_subn w h⟩,
    fun h => ⟨_, row_shl w h⟩, fun h => ⟨_, row_sneReg w h⟩, fun h => ⟨_, row_ldI w h⟩,
    fun h => ⟨_, row_jpV0 w h⟩, fun h => ⟨_, row_rnd w h⟩, fun h => ⟨_, row_drw w h⟩,
    fun h => ⟨_, row_skp w h⟩, fun h => ⟨_, row_sknp w h⟩, fun h => ⟨_, row_ldVxDt w h⟩,
    fun h => ⟨_, row_ldVxK w h⟩, fun h => ⟨_, row_ldDt w h⟩, fun h => ⟨_, row_ldSt w h⟩,
    fun h => ⟨_, row_addI w h⟩, fun h => ⟨_, row_ldF w h⟩, fun h => ⟨_, row_ldB w h⟩,
    fun h => ⟨_, row_ldMemVx w h⟩, fun h => ⟨_, row_ldVxMem w h⟩, List.forall_mem_nil _⟩

theorem decodeWord_ok_iff (w : Word) :
    (∃ i, decodeWord w = .ok i) ↔ ∃ r ∈ opcodeRows, w &&& r.1 = r.2 :=
  ⟨fun ⟨i, h⟩ => ⟨rowMaskMatch i, rowMaskMatch_mem_opcodeRows i, decodeWord_matches_row w i h⟩,
    fun ⟨r, hr, h⟩ => decodeWord_of_opcodeRow w r hr h⟩

/-- The decoder is total: a word that is no instruction is rejected by name. -/
theorem decodeWord_error_iff_not_ok (w : Word) :
    (∃ r, decodeWord w = .error r) ↔ ¬ ∃ i, decodeWord w = .ok i := by
  cases decodeWord w <;> simp

end Sys2Proof.Laws

namespace Sys2Proof.Proofs

open Sys2Proof.Laws

/-- Settles O4. A row's word decodes by the row lemmas; a word that decodes is the encoding of its
instruction, which has the fixed bits of its row. -/
theorem decodeFollowsOpcodeMap : Obligations.DecodeFollowsOpcodeMap :=
  ⟨rfl, fun w r hr q hq => opcodeRows_disjoint w r q hr hq,
    fun w => ⟨decodeWord_ok_iff w, (decodeWord_error_iff_not_ok w).trans (not_congr (decodeWord_ok_iff w))⟩,
    fun w i h => ⟨rowMaskMatch_mem_opcodeRows i, decodeWord_matches_row w i h⟩⟩

end Sys2Proof.Proofs

/-! ## The step on an unknown word, and the halt (30_encoding.md R60, R68) -/

namespace Sys2Proof.Machine

theorem beeps_eq (tick : Bool) (b : Byte) : beeps tick b = (tick && decide (b ≠ 0)) := by
  simp only [beeps, ne_eq, decide_not, Bool.and_comm]

theorem State.fetchInBounds_eq_false_iff (s : State) :
    s.fetchInBounds = false ↔ s.cfg.memSize ≤ s.pc.toNat + 1 := by simp [State.fetchInBounds]

/-- Loading a program changes nothing but MEM (70_reset_and_hazards.md R143). -/
theorem State.loadProgram_eq_withMem (s : State) (bs : List Byte) :
    (s.loadProgram bs).2 = s.withMem (s.loadProgram bs).2.mem := by
  unfold State.loadProgram
  split
  · rfl
  · exact State.writeBytes_eq s s.cfg.programStart bs

/-- Once its outputs are cleared, a halted engine stays as it is. -/
theorem stepTick_of_halted (tick : Bool) (s : State) (hf : s.fault = .none) (hb : s.fetchInBounds = false)
    (ho : s.out = Outputs.cleared) : stepTick tick s = .next s := by
  rw [stepTick_of_halt tick s hf hb, State.stopped, ← ho]
  rfl

end Sys2Proof.Machine

namespace Sys2Proof.Proofs

open Sys2Proof.Machine

/-- Settles O7, by the step's case for an unknown word and the closed form of the timer update. -/
theorem unknownWordIsObservableNoOp : Obligations.UnknownWordIsObservableNoOp := by
  unfold Obligations.UnknownWordIsObservableNoOp
  intro tick s r ⟨hf, hb⟩ hd
  refine ⟨countDown tick s.dt, countDown tick s.st, countDown_toNat tick s.dt, countDown_toNat tick s.st, ?_⟩
  rw [stepTick_of_error tick s r hf hb hd, State.finish_eq, ← beeps_eq]
  rfl

/-- Settles O8. The halt depends on FAULT, PC and the configuration alone, and no host move here writes
those. -/
theorem fetchOutOfBoundsHalts : Obligations.FetchOutOfBoundsHalts := by
  unfold Obligations.FetchOutOfBoundsHalts
  intro tick tick' s hf hpc
  have hb := s.fetchInBounds_eq_false_iff.mpr hpc
  refine ⟨s.stopped, s.stopped_eq, stepTick_of_halt tick s hf hb,
    stepTick_of_halted tick' s.stopped hf hb rfl, fun k bs => ?_⟩
  rw [State.loadProgram_eq_withMem]
  exact stepTick_of_halted tick' _ hf hb rfl

end Sys2Proof.Proofs

/-! ## The display: CLS and DRW (41_display.md R76, R77) -/

namespace Sys2Proof

theorem Config.one_le_display_of_valid (c : Config) (h : c.valid = true) : 1 ≤ c.displayW ∧ 1 ≤ c.displayH := by
  simp only [Config.valid, Config.displayValid, Bool.and_eq_true, decide_eq_true_eq] at h
  obtain ⟨⟨-, hsize⟩, -⟩ := h
  exact hsize

end Sys2Proof

namespace Sys2Proof.Machine

open Sys2Proof.Claims

/-- Where the table gives a cause (60_exceptions.md R120), the instruction takes that fault. -/
theorem takesFault_of_faultOf_eq {i : Instr} {s : State} {c : FaultCause} (h : faultOf i s = c) (hc : c ≠ .none) :
    TakesFault i s c := by
  subst h
  obtain ⟨hn, -⟩ | ⟨-, he⟩ := exec_cases i s
  · exact absurd hn hc
  · rwa [State.raiseFault_eq] at he

/-- What DRW answers when its whole sprite lies inside MEM_SIZE. -/
theorem exec_drw_of_inBounds (s : State) (x y : Reg) (n : BitVec 4)
    (h : ∀ k < n.toNat, s.ireg.toNat + k < s.cfg.memSize) :
    exec (.drw x y n) s = .next ((s.withDisp (s.disp.xorCells (s.drawCells x y n)).1).setVF
      (s.disp.xorCells (s.drawCells x y n)).2) :=
  if_pos ((State.indirectOk_forall s n.toNat).mpr h)

theorem State.drawCells_bounds (s : State) (h : s.cfg.valid = true) (x y : Reg) (n : BitVec 4) :
    ∀ p ∈ s.drawCells x y n, p.1 < s.cfg.displayH ∧ p.2 < s.cfg.displayW :=
  have ⟨hw, hh⟩ := s.cfg.one_le_display_of_valid h
  spriteCells_bounds _ _ _ _ _ _ hw hh

/-- DRW finds a cell lit iff a set bit falls on one lit before, or two set bits fall on one (R77, corner case
6): a drawn cell is one on which at least one set bit falls. -/
theorem State.drw_hit_iff (s : State) (hs : s.Inv) (x y : Reg) (n : BitVec 4) :
    (s.disp.xorCells (s.drawCells x y n)).2 = true ↔
      ∃ py px, py < s.cfg.displayH ∧ px < s.cfg.displayW ∧
        ((s.disp.get py px = true ∧ 1 ≤ s.bitsOn x y n py px) ∨ 2 ≤ s.bitsOn x y n py px) := by
  obtain ⟨hv, -, hd, -⟩ := hs
  have hb := s.drawCells_bounds hv x y n
  have hmem (py px : Nat) : (py, px) ∈ s.drawCells x y n ↔ 1 ≤ s.bitsOn x y n py px := by
    rw [← s.count_drawCells, ← List.count_pos_iff, Nat.succ_le_iff]
  rw [Display.xorCells_hit s.disp hd _ hb]
  constructor
  · rintro ⟨⟨py, px⟩, hp, hit⟩
    obtain ⟨hy, hx⟩ := hb _ hp
    rw [s.count_drawCells] at hit
    exact ⟨py, px, hy, hx, hit.imp_left fun hl => ⟨hl, (hmem py px).mp hp⟩⟩
  · rintro ⟨py, px, -, -, hit⟩
    refine ⟨(py, px), (hmem py px).mpr (by omega), ?_⟩
    rw [s.count_drawCells]
    exact hit.imp_left And.left

end Sys2Proof.Machine

namespace Sys2Proof.Proofs

open Sys2Proof.Machine

/-- Settles O21: the display CLS leaves is the blank one of the configured size. -/
theorem clsUnlightsEveryCell : Obligations.ClsUnlightsEveryCell :=
  ⟨Laws.row_cls, fun s => ⟨Display.blank s.cfg.displayW s.cfg.displayH, rfl, Display.sized_blank _ _,
    Display.get_blank _ _⟩⟩

/-- Settles O22. DRW toggles each cell as often as set bits fall on it (`State.count_drawCells`), and VF is
whether one of these toggles found its cell lit (`State.drw_hit_iff`). -/
theorem drwXorsTheSprite : Obligations.DrwXorsTheSprite := by
  unfold Obligations.DrwXorsTheSprite
  refine ⟨Laws.row_drw, fun s x y n hout => ?_, fun s x y n hs hin => ?_⟩
  · exact takesFault_of_faultOf_eq (if_pos hout) (by decide)
  · have hhit := s.drw_hit_iff hs x y n
    obtain ⟨hv, -, hd, -⟩ := hs
    refine ⟨(s.disp.xorCells (s.drawCells x y n)).1, (s.setVF (s.disp.xorCells (s.drawCells x y n)).2).v,
      exec_drw_of_inBounds s x y n hin, Display.sized_xorCells _ hd _, fun py px _ _ => ?_, fun r hr => ?_,
      fun h => ?_, fun h => ?_⟩
    · rw [← s.count_drawCells]
      exact Display.get_xorCells s.disp hd _ (s.drawCells_bounds hv x y n) py px
    · exact (s.getV_setV VF r _).trans (if_neg hr)
    · rw [hhit.mpr h]
      exact s.getV_setV_same VF 1
    · rw [Bool.eq_false_iff.mpr (mt hhit.mp h)]
      exact s.getV_setV_same VF 0

end Sys2Proof.Proofs

/-! ## Control flow (42_control_flow.md R78 to R86) -/

namespace Sys2Proof

theorem zextAddr_toNat (nnn : BitVec 12) : (zextAddr nnn).toNat = nnn.toNat :=
  BitVec.toNat_setWidth_of_le (by decide)

theorem zextByte_toNat (b : Byte) : (zextByte b).toNat = b.toNat :=
  BitVec.toNat_setWidth_of_le (by decide)

theorem jumpX_val (nnn : BitVec 12) : (jumpX nnn).val = nnn.toNat / 256 := by
  have hlt := nnn.isLt
  calc (jumpX nnn).val = nnn.toNat >>> 8 % 2 ^ 4 := BitVec.extractLsb'_toNat 8 4 nnn
    _ = nnn.toNat / 256 := by rw [Nat.shiftRight_eq_div_pow]; omega

end Sys2Proof

namespace Sys2Proof.Machine

/-- BNNN's target as a number: modulo 2^16, and not masked to 12 bits (R86). -/
theorem State.jumpTarget_toNat (s : State) (nnn : BitVec 12) (x : Reg) (hx : x.val = nnn.toNat / 256) :
    (s.jumpTarget nnn).toNat =
      (nnn.toNat + (if s.cfg.quirkJumpVx then s.getV x else s.getV 0).toNat) % 65536 := by
  obtain rfl : x = jumpX nnn := Fin.ext (hx.trans (jumpX_val nnn).symm)
  rw [State.jumpTarget, BitVec.toNat_add, zextAddr_toNat, zextByte_toNat, apply_ite s.getV]

/-- A push below a full stack (10_state.md R21). -/
theorem State.push?_of_lt (s : State) (a : Word) (h : s.sp.val < 16) :
    s.push? a = some ((s.withStack (s.stack.set s.sp.val a h)).withSp ⟨s.sp.val + 1, Nat.succ_lt_succ h⟩) :=
  dif_pos h

/-- A pop from a stack whose top slot is `j` (10_state.md R21). -/
theorem State.pop?_of_sp_eq_succ (s : State) (j : Fin 16) (h : s.sp.val = j.val + 1) :
    s.pop? = some (s.stack[j], s.withSp j.castSucc) := by
  have hsp : s.sp = j.succ := Fin.ext h
  simp [State.pop?, hsp, Fin.castSucc, Fin.castAdd, Fin.castLE]

/-- What CALL answers below a full stack (R81). -/
theorem exec_call_of_lt (s : State) (nnn : BitVec 12) (h : s.sp.val < 16) :
    exec (.call nnn) s = .next { s with
      stack := s.stack.set s.sp.val s.pc h, sp := ⟨s.sp.val + 1, Nat.succ_lt_succ h⟩, pc := zextAddr nnn } := by
  show execCall nnn s = _
  rw [execCall, s.push?_of_lt s.pc h]
  rfl

/-- What RET answers when the top slot is `j` (R79). -/
theorem exec_ret_of_sp_eq_succ (s : State) (j : Fin 16) (h : s.sp.val = j.val + 1) :
    exec .ret s = .next { s with sp := j.castSucc, pc := s.stack[j] } := by
  show execRet s = _
  rw [execRet, s.pop?_of_sp_eq_succ j h]
  rfl

/-- A skip on equal operands. -/
theorem State.skipIf_beq (s : State) (a b : Byte) :
    s.skipIf (a == b) = { s with pc := if a = b then s.pc + 2 else s.pc } := by
  simp only [State.skipIf_eq, beq_iff_eq, State.withPc]

/-- A skip on unequal operands. -/
theorem State.skipIf_bne (s : State) (a b : Byte) :
    s.skipIf (a != b) = { s with pc := if a = b then s.pc else s.pc + 2 } := by
  simp only [State.skipIf_eq, bne_iff_ne, ne_eq, ite_not, State.withPc]

end Sys2Proof.Machine

namespace Sys2Proof.Proofs

open Sys2Proof.Machine

/-- Settles O25. -/
theorem nopChangesNothing : Obligations.NopChangesNothing :=
  ⟨Laws.row_nop, fun _ => rfl⟩

/-- Settles O26: the targets of 1NNN and BNNN as numbers. -/
theorem jumpsSetPc : Obligations.JumpsSetPc :=
  ⟨Laws.row_jp, Laws.row_jpV0, fun s nnn =>
    ⟨⟨zextAddr nnn, rfl, zextAddr_toNat nnn⟩,
      fun x hx => ⟨s.jumpTarget nnn, rfl, s.jumpTarget_toNat nnn x hx⟩⟩⟩

/-- Settles O27, by the fault table on a full stack and the push below it. -/
theorem callPushesAndJumps : Obligations.CallPushesAndJumps := by
  unfold Obligations.CallPushesAndJumps
  refine ⟨Laws.row_call, fun s nnn => ⟨fun hfull => ?_, fun hlt => ?_⟩⟩
  · exact takesFault_of_faultOf_eq (if_pos hfull) (by decide)
  · refine ⟨_, _, _, exec_call_of_lt s nnn hlt, rfl, zextAddr_toNat nnn, fun j => ?_⟩
    simp only [Fin.getElem_fin, Vector.getElem_set, eq_comm (a := s.sp.val)]

/-- Settles O28, by the fault table on an empty stack and the pop above it. -/
theorem retPopsIntoPc : Obligations.RetPopsIntoPc := by
  unfold Obligations.RetPopsIntoPc
  refine ⟨Laws.row_ret, fun s => ⟨fun hempty => ?_, fun j hj => ?_⟩⟩
  · exact takesFault_of_faultOf_eq (if_pos hempty) (by decide)
  · exact ⟨j.castSucc, rfl, exec_ret_of_sp_eq_succ s j hj⟩

/-- Settles O30: each of the four is a skip on equal or on unequal operands. -/
theorem skipsOnComparison : Obligations.SkipsOnComparison :=
  ⟨Laws.row_seImm, Laws.row_sneImm, Laws.row_seReg, Laws.row_sneReg, fun s x y kk =>
    ⟨congrArg _ (s.skipIf_beq (s.getV x) kk), congrArg _ (s.skipIf_bne (s.getV x) kk),
      congrArg _ (s.skipIf_beq (s.getV x) (s.getV y)), congrArg _ (s.skipIf_bne (s.getV x) (s.getV y))⟩⟩

end Sys2Proof.Proofs

/-! ## Registers, ALU and the generator (43_alu.md R87 to R99) -/

namespace Sys2Proof.Machine

/-! ### Bytes as numbers -/

theorem byte_sub_toNat (a b : Byte) : (a - b).toNat = (a.toNat + 256 - b.toNat) % 256 := by
  have hb := b.isLt
  rw [BitVec.toNat_sub]
  omega

theorem byte_shiftRight_one_toNat (b : Byte) : (b >>> 1).toNat = b.toNat / 2 :=
  (BitVec.toNat_ushiftRight b 1).trans (Nat.shiftRight_eq_div_pow b.toNat 1)

theorem byte_shiftLeft_one_toNat (b : Byte) : (b <<< 1).toNat = 2 * b.toNat % 256 := by
  rw [BitVec.toNat_shiftLeft, Nat.shiftLeft_eq, Nat.mul_comm]

/-! ### Flags as numbers -/

theorem flagByte_toNat (c : Bool) : (flagByte c).toNat = c.toNat := by cases c <;> rfl

/-- A flag computed by a comparison: `carryOut` and `noBorrow` are such. -/
theorem flagByte_decide_toNat (p : Prop) [Decidable p] : (flagByte (decide p)).toNat = if p then 1 else 0 := by
  rw [flagByte_toNat, Bool.toNat, Bool.cond_decide]

theorem flagByte_getLsbD_toNat (b : Byte) (j : Nat) : (flagByte (b.getLsbD j)).toNat = b.toNat / 2 ^ j % 2 := by
  rw [flagByte_toNat, BitVec.getLsbD, Nat.toNat_testBit]

theorem flagByte_shrOut_toNat (b : Byte) : (flagByte (shrOut b)).toNat = b.toNat % 2 := by
  rw [shrOut, flagByte_getLsbD_toNat, pow_zero, Nat.div_one]

theorem flagByte_shlOut_toNat (b : Byte) : (flagByte (shlOut b)).toNat = b.toNat / 128 := by
  have hb := b.isLt
  rw [shlOut, flagByte_getLsbD_toNat]
  omega

/-! ### Register writes -/

section

open Sys2Proof.Claims

theorem State.v_setV_of_ne (s : State) {x r : Reg} (b : Byte) (h : r ≠ x) : (s.setV x b).v[r] = s.v[r] :=
  (s.getV_setV x r b).trans (if_neg h)

theorem State.v_setV_same (s : State) (x : Reg) (b : Byte) : (s.setV x b).v[x] = b :=
  s.getV_setV_same x b

theorem State.getV_setV_toNat (s : State) (x r : Reg) (b : Byte) :
    ((s.setV x b).getV r).toNat = if r = x then b.toNat else (s.getV r).toNat := by
  rw [State.getV_setV, apply_ite BitVec.toNat]

variable {i : Instr} {s : State} {x x' : Reg} {b b' : Byte} {n n' : Nat}

/-- An instruction whose whole effect is one register write. -/
theorem regsBecome_of_setV (he : exec i s = .next (s.setV x b)) (hb : b.toNat = n) :
    RegsBecome i s (fun r => if r = x then n else (s.getV r).toNat) := by
  subst hb
  exact ⟨(s.setV x b).v, he, fun r => s.getV_setV_toNat x r b⟩

/-- An instruction whose whole effect is two register writes: the second wins when they are of one register. -/
theorem regsBecome_of_setV_setV (he : exec i s = .next ((s.setV x b).setV x' b')) (hb : b.toNat = n)
    (hb' : b'.toNat = n') :
    RegsBecome i s (fun r => if r = x' then n' else if r = x then n else (s.getV r).toNat) := by
  subst hb hb'
  refine ⟨((s.setV x b).setV x' b').v, he, fun r => ?_⟩
  refine ((s.setV x b).getV_setV_toNat x' r b').trans ?_
  rw [s.getV_setV_toNat]

/-- An instruction whose whole effect is one register write, read bit by bit. -/
theorem exists_v_bits_of_setV {f : Nat → Bool} (he : exec i s = .next (s.setV x b))
    (hb : ∀ j, b.getLsbD j = f j) :
    ∃ u : Vector Byte 16, exec i s = .next { s with v := u } ∧ (∀ r : Reg, r ≠ x → u[r] = s.v[r]) ∧
      ∀ j, (u[x]).getLsbD j = f j :=
  ⟨(s.setV x b).v, he, fun _ => s.v_setV_of_ne b, fun j => (congrArg (·.getLsbD j) (s.v_setV_same x b)).trans (hb j)⟩

end

/-! ### Shifts (R96, R98) -/

/-- Under QUIRK_SHIFT_VY a shift's operand is VY as it stood before the flag write. -/
theorem State.shiftBy_of_quirk (s : State) (out : Byte → Bool) (move : Byte → Byte) (x y : Reg)
    (h : s.cfg.quirkShiftVy = true) :
    s.shiftBy out move x y = (s.setV VF (flagByte (out (s.getV y)))).setV x (move (s.getV y)) :=
  if_pos h

/-- By default a shift reads VX again after the flag write, so with X = F it moves the flag. -/
theorem State.shiftBy_of_default (s : State) (out : Byte → Bool) (move : Byte → Byte) (x y : Reg)
    (h : s.cfg.quirkShiftVy = false) :
    s.shiftBy out move x y = (s.setV VF (flagByte (out (s.getV x)))).setV x
      (move (if x = VF then flagByte (out (s.getV x)) else s.getV x)) := by
  rw [← State.getV_setV]
  exact if_neg (Bool.eq_false_iff.mp h)

/-! ### The generator (R99) -/

theorem bitVec_shiftLeft_eq_ofNat {w : Nat} (r : BitVec w) (k : Nat) :
    r <<< k = BitVec.ofNat w (r.toNat * 2 ^ k) := by
  rw [← Nat.shiftLeft_eq]
  rfl

theorem bitVec_shiftRight_eq_ofNat {w : Nat} (r : BitVec w) (k : Nat) :
    r >>> k = BitVec.ofNat w (r.toNat / 2 ^ k) := by
  rw [← Nat.shiftRight_eq_div_pow, ← BitVec.toNat_ushiftRight, BitVec.ofNat_toNat, BitVec.setWidth_eq]

/-- What RND answers with RNG_MODE = xorshift32. -/
theorem exec_rnd_of_xorshift32 (s : State) (x : Reg) (kk : Byte) (h : s.cfg.rngMode = .xorshift32) :
    exec (.rnd x kk) s =
      .next ((s.withRng (xorshift32 s.rng)).setV x ((xorshift32 s.rng).setWidth 8 &&& kk)) := by
  show execRnd x kk s = _
  simp only [execRnd, State.randomByte, h]

end Sys2Proof.Machine

namespace Sys2Proof.Proofs

open Sys2Proof.Machine

/-- Settles O31: each of the two writes one register. -/
theorem loadsCopyIntoVx : Obligations.LoadsCopyIntoVx :=
  ⟨Laws.row_ldImm, Laws.row_ldReg, fun _ _ _ _ => ⟨regsBecome_of_setV rfl rfl, regsBecome_of_setV rfl rfl⟩⟩

/-- Settles O32: the one write is BitVec's sum, which is modulo 2^8. -/
theorem addImmediateWrapsWithoutFlag : Obligations.AddImmediateWrapsWithoutFlag :=
  ⟨Laws.row_addImm, fun s x kk => regsBecome_of_setV rfl (BitVec.toNat_add (s.getV x) kk)⟩

/-- Settles O33: each of the three writes one register, and BitVec's operation acts on it bit by bit. -/
theorem logicIsBitwiseWithoutFlag : Obligations.LogicIsBitwiseWithoutFlag :=
  ⟨Laws.row_orReg, Laws.row_andReg, Laws.row_xorReg, fun _ _ _ =>
    ⟨exists_v_bits_of_setV rfl fun _ => BitVec.getLsbD_or, exists_v_bits_of_setV rfl fun _ => BitVec.getLsbD_and,
      exists_v_bits_of_setV rfl fun _ => BitVec.getLsbD_xor⟩⟩

/-- Settles O34: the sum is written first and the carry second, so the carry wins. -/
theorem addRegisterSetsCarry : Obligations.AddRegisterSetsCarry :=
  ⟨Laws.row_addReg, fun s x y =>
    regsBecome_of_setV_setV rfl (BitVec.toNat_add (s.getV x) (s.getV y)) (flagByte_decide_toNat _)⟩

/-- Settles O35: the difference is written first and no-borrow second, so no-borrow wins. -/
theorem subtractionsSetNoBorrow : Obligations.SubtractionsSetNoBorrow :=
  ⟨Laws.row_sub, Laws.row_subn, fun s x y =>
    ⟨regsBecome_of_setV_setV rfl (byte_sub_toNat (s.getV x) (s.getV y)) (flagByte_decide_toNat _),
      regsBecome_of_setV_setV rfl (byte_sub_toNat (s.getV y) (s.getV x)) (flagByte_decide_toNat _)⟩⟩

/-- Settles O36: the flag is written first, so VX wins; with X = F and no quirk half of the flag is 0. -/
theorem shrShiftsOutBitZero : Obligations.ShrShiftsOutBitZero := by
  unfold Obligations.ShrShiftsOutBitZero
  refine ⟨Laws.row_shr, fun s x y => ⟨fun hq => ?_, fun hq => ?_⟩⟩
  · refine regsBecome_of_setV_setV (congrArg _ (s.shiftBy_of_default _ _ x y hq))
      (flagByte_shrOut_toNat (s.getV x)) ?_
    rw [byte_shiftRight_one_toNat]
    split
    · rw [flagByte_shrOut_toNat]
      omega
    · rfl
  · exact regsBecome_of_setV_setV (congrArg _ (s.shiftBy_of_quirk _ _ x y hq))
      (flagByte_shrOut_toNat (s.getV y)) (byte_shiftRight_one_toNat (s.getV y))

/-- Settles O37: the flag is written first, so VX wins; with X = F and no quirk that is twice the flag. -/
theorem shlShiftsOutBitSeven : Obligations.ShlShiftsOutBitSeven := by
  unfold Obligations.ShlShiftsOutBitSeven
  refine ⟨Laws.row_shl, fun s x y => ⟨fun hq => ?_, fun hq => ?_⟩⟩
  · refine regsBecome_of_setV_setV (congrArg _ (s.shiftBy_of_default _ _ x y hq))
      (flagByte_shlOut_toNat (s.getV x)) ?_
    rw [byte_shiftLeft_one_toNat]
    split
    · have hlt := (s.getV x).isLt
      rw [flagByte_shlOut_toNat]
      omega
    · rfl
  · exact regsBecome_of_setV_setV (congrArg _ (s.shiftBy_of_quirk _ _ x y hq))
      (flagByte_shlOut_toNat (s.getV y)) (byte_shiftLeft_one_toNat (s.getV y))

/-- Settles O38: the model's shifts are the spec's multiplication and division by powers of two, and the byte
is the low byte of the new RNG. -/
theorem rndAdvancesTheGenerator : Obligations.RndAdvancesTheGenerator := by
  unfold Obligations.RndAdvancesTheGenerator
  refine ⟨Laws.row_rnd, fun s x kk hmode => ?_⟩
  refine ⟨_, _, xorshift32 s.rng, _, rfl, rfl, ?_, exec_rnd_of_xorshift32 s x kk hmode, fun r hr => ?_, fun j => ?_⟩
  · simp only [xorshift32, bitVec_shiftLeft_eq_ofNat, bitVec_shiftRight_eq_ofNat]
  · exact (s.withRng _).v_setV_of_ne _ hr
  · refine (congrArg (·.getLsbD j) ((s.withRng _).v_setV_same x _)).trans ?_
    rw [BitVec.getLsbD_and, BitVec.getLsbD_setWidth]

end Sys2Proof.Proofs

/-! ## Address register and memory (44_index_memory.md R101 to R106) -/

namespace Sys2Proof.Machine

/-! ### Bytes and I as numbers -/

theorem byte_ofNat_toNat {n : Nat} (h : n < 256) : (BitVec.ofNat 8 n).toNat = n :=
  (BitVec.toNat_ofNat n 8).trans (Nat.mod_eq_of_lt h)

theorem byte_and_0F_toNat (b : Byte) : (b &&& 0x0F).toNat = b.toNat % 16 :=
  Nat.and_two_pow_sub_one_eq_mod b.toNat 4

/-- The glyph address modulo 2^16, with the digit masked under QUIRK_FONT_MASK only (R103). -/
theorem State.glyphAddr_toNat (s : State) (b : Byte) :
    (s.glyphAddr b).toNat =
      (s.cfg.fontBase + 5 * (if s.cfg.quirkFontMask then b.toNat % 16 else b.toNat)) % 65536 := by
  rw [State.glyphAddr, BitVec.toNat_ofNat, apply_ite BitVec.toNat, byte_and_0F_toNat]

/-- What follows a load or store of `n` registers writes I alone, and advances it under QUIRK_LS_INCREMENT
only. -/
theorem State.exists_ireg_of_advanceI (s : State) (n : Nat) :
    ∃ a : Word, s.advanceI n = { s with ireg := a } ∧
      a.toNat = if s.cfg.quirkLsIncrement then (s.ireg.toNat + n) % 65536 else s.ireg.toNat := by
  refine ⟨_, s.advanceI_eq n, ?_⟩
  rw [apply_ite BitVec.toNat, BitVec.toNat_add, BitVec.toNat_ofNat, Nat.add_mod_mod]

/-! ### Data at I -/

/-- The check of n + 1 data addresses is that of the last one. -/
theorem State.indirectOk_succ_of_lt (s : State) (n : Nat) (h : s.ireg.toNat + n < s.cfg.memSize) :
    s.indirectOk (n + 1) = true :=
  (s.indirectOk_iff (n + 1)).mpr (.inr h)

/-- A store of bytes writes MEM alone: each byte is read back at its own address, and every other address
reads as before (20_memory.md R41, R44). -/
theorem State.exists_mem_of_writeBytes (s : State) (hm : Memory.wf s.cfg s.mem) (a : Nat) (bs : List Byte) :
    ∃ m : Memory, s.writeBytes a bs = { s with mem := m } ∧
      (∀ (k : Nat) (hk : k < bs.length), State.readByte { s with mem := m } (a + k) = bs[k]) ∧
      ∀ a', (a' < a ∨ a + bs.length ≤ a') → State.readByte { s with mem := m } a' = s.readByte a' := by
  obtain ⟨hrising, -⟩ := hm
  have he : s.writeBytes a bs = { s with mem := (s.writeBytes a bs).mem } := s.writeBytes_eq a bs
  refine ⟨_, he, fun k hk => ?_, fun a' hout => ?_⟩
  · rw [← he, s.readByte_writeBytes hrising, if_pos (Nat.le_add_right a k), Nat.add_sub_cancel_left,
      List.getD_eq_getElem _ _ hk]
  · rw [← he, s.readByte_writeBytes hrising]
    split
    · exact List.getD_eq_default _ _ (by omega)
    · rfl

theorem State.lt_length_lowRegs (s : State) {x k : Reg} (h : k ≤ x) : k.val < (s.lowRegs x).length := by
  rw [s.length_lowRegs]
  exact Nat.lt_succ_of_le h

theorem State.getElem_lowRegs (s : State) {x k : Reg} (h : k ≤ x) :
    (s.lowRegs x)[k.val]'(s.lt_length_lowRegs h) = s.getV k := by
  rw [← List.getD_eq_getElem _ 0]
  exact s.getD_lowRegs x k.val h 0

/-- What LD_B answers when its three addresses exist (R104). -/
theorem exec_ldB_of_lt (s : State) (x : Reg) (h : s.ireg.toNat + 2 < s.cfg.memSize) :
    exec (.ldB x) s = .next (s.writeBytes s.ireg.toNat (decimalDigits (s.getV x))) :=
  if_pos (s.indirectOk_succ_of_lt 2 h)

/-- What LD_MEM_VX answers when its addresses exist (R105). -/
theorem exec_ldMemVx_of_lt (s : State) (x : Reg) (h : s.ireg.toNat + x.val < s.cfg.memSize) :
    exec (.ldMemVx x) s = .next ((s.writeBytes s.ireg.toNat (s.lowRegs x)).advanceI (x.val + 1)) :=
  if_pos (s.indirectOk_succ_of_lt x.val h)

/-- What LD_VX_MEM answers when its addresses exist (R106). -/
theorem exec_ldVxMem_of_lt (s : State) (x : Reg) (h : s.ireg.toNat + x.val < s.cfg.memSize) :
    exec (.ldVxMem x) s = .next ((s.loadRegs x).advanceI (x.val + 1)) :=
  if_pos (s.indirectOk_succ_of_lt x.val h)

end Sys2Proof.Machine

namespace Sys2Proof.Proofs

open Sys2Proof.Machine

/-- Settles O40: the three values of I as numbers. -/
theorem addressRegisterWrites : Obligations.AddressRegisterWrites := by
  unfold Obligations.AddressRegisterWrites
  refine ⟨Laws.row_ldI, Laws.row_addI, Laws.row_ldF, fun s x nnn => ⟨?_, ?_, ?_⟩⟩
  · exact ⟨zextAddr nnn, rfl, zextAddr_toNat nnn⟩
  · refine ⟨s.ireg + zextByte (s.getV x), rfl, ?_⟩
    rw [BitVec.toNat_add, zextByte_toNat]
  · exact ⟨s.glyphAddr (s.getV x), rfl, s.glyphAddr_toNat (s.getV x)⟩

/-- Settles O41, by the fault table at the last address and the store of the three digits below it. Each digit
is below 256, so its byte loses nothing. -/
theorem ldBStoresThreeDigits : Obligations.LdBStoresThreeDigits := by
  unfold Obligations.LdBStoresThreeDigits
  refine ⟨Laws.row_ldB, fun s x => ⟨fun hout => ?_, fun hm hlt => ?_⟩⟩
  · exact takesFault_of_faultOf_eq (if_pos hout) (by decide)
  · obtain ⟨m, he, hread, hframe⟩ := s.exists_mem_of_writeBytes hm s.ireg.toNat (decimalDigits (s.getV x))
    rw [length_decimalDigits] at hframe
    have hv := (s.getV x).isLt
    refine ⟨m, (exec_ldB_of_lt s x hlt).trans (congrArg _ he), ?_, ?_, ?_,
      fun a ha => hframe a (by omega)⟩
    · exact (congrArg _ (hread 0 (by simp))).trans (byte_ofNat_toNat (by omega))
    · exact (congrArg _ (hread 1 (by simp))).trans (byte_ofNat_toNat (by omega))
    · exact (congrArg _ (hread 2 (by simp))).trans (byte_ofNat_toNat (by omega))

/-- Settles O42, by the fault table at the last address and, below it, the store of V0..VX and then the
advance of I. -/
theorem ldMemVxStoresRegisters : Obligations.LdMemVxStoresRegisters := by
  unfold Obligations.LdMemVxStoresRegisters
  refine ⟨Laws.row_ldMemVx, fun s x => ⟨fun hout => ?_, fun hm hlt => ?_⟩⟩
  · exact takesFault_of_faultOf_eq (if_pos hout) (by decide)
  · obtain ⟨m, hmem, hread, hframe⟩ := s.exists_mem_of_writeBytes hm s.ireg.toNat (s.lowRegs x)
    obtain ⟨a, hireg, ha⟩ := State.exists_ireg_of_advanceI { s with mem := m } (x.val + 1)
    rw [s.length_lowRegs] at hframe
    refine ⟨m, a, ?_, ha, fun k hk => ?_, fun b hb => hframe b (by omega)⟩
    · rw [exec_ldMemVx_of_lt s x hlt, hmem, hireg]
    · exact (hread k.val (s.lt_length_lowRegs hk)).trans (s.getElem_lowRegs hk)

/-- Settles O43, by the fault table at the last address and, below it, the load of V0..VX and then the
advance of I. -/
theorem ldVxMemLoadsRegisters : Obligations.LdVxMemLoadsRegisters := by
  unfold Obligations.LdVxMemLoadsRegisters
  refine ⟨Laws.row_ldVxMem, fun s x => ⟨fun hout => ?_, fun hlt => ?_⟩⟩
  · exact takesFault_of_faultOf_eq (if_pos hout) (by decide)
  · obtain ⟨a, hireg, ha⟩ := (s.loadRegs x).exists_ireg_of_advanceI (x.val + 1)
    refine ⟨(s.loadRegs x).v, a, ?_, ha, fun r => s.getV_loadRegs x r⟩
    rw [exec_ldVxMem_of_lt s x hlt, hireg]
    rfl

end Sys2Proof.Proofs

/-! ## Keypad and timers (45_keypad_timer.md R107 to R112) -/

namespace Sys2Proof.Machine

/-! ### Keys -/

/-- A byte up to 15 names the key of that number (R107). -/
theorem State.keyOf?_of_toNat_eq (s : State) (b : Byte) (k : Fin 16) (h : b.toNat = k.val) :
    s.keyOf? b = some s.keys[k] := by
  rw [s.keyOf?_of_lt b (h ▸ k.isLt)]
  simp only [h, Fin.getElem_fin]

theorem State.lowestKey?_eq_some (s : State) (k : Fin 16) :
    s.lowestKey? = some k ↔ s.keys[k] = true ∧ ∀ j : Fin 16, j < k → s.keys[j] = false := by
  rw [State.lowestKey?, ← Fin.find?_eq_find?_finRange, Fin.find?_eq_some_iff]

/-- A skip on the negated condition. -/
theorem State.skipIf_not (s : State) (c : Bool) :
    s.skipIf (!c) = { s with pc := if c then s.pc else s.pc + 2 } := by
  cases c <;> rfl

/-- What SKP answers when VX names key `k` (R107). -/
theorem exec_skp_of_key (s : State) (x : Reg) (k : Fin 16) (h : (s.getV x).toNat = k.val) :
    exec (.skp x) s = .next { s with pc := if s.keys[k] then s.pc + 2 else s.pc } := by
  show execSkp x s = _
  rw [execSkp, s.keyOf?_of_toNat_eq _ k h]
  exact congrArg _ (s.skipIf_eq s.keys[k])

/-- What SKNP answers when VX names key `k` (R108). -/
theorem exec_sknp_of_key (s : State) (x : Reg) (k : Fin 16) (h : (s.getV x).toNat = k.val) :
    exec (.sknp x) s = .next { s with pc := if s.keys[k] then s.pc else s.pc + 2 } := by
  show execSknp x s = _
  rw [execSknp, s.keyOf?_of_toNat_eq _ k h]
  exact congrArg _ (s.skipIf_not s.keys[k])

/-- What FX0A answers when `k` is the lowest pressed key (R110). -/
theorem exec_ldVxK_of_lowest (s : State) (x : Reg) (k : Fin 16) (h : s.lowestKey? = some k) :
    exec (.ldVxK x) s = .next (s.setV x (BitVec.ofNat 8 k.val)) := by
  show execLdVxK x s = _
  rw [execLdVxK, h]

/-- What FX0A answers while no key is pressed (R110). -/
theorem exec_ldVxK_of_none (s : State) (x : Reg) (h : ∀ k : Fin 16, s.keys[k] = false) :
    exec (.ldVxK x) s = .next { s with pc := s.pc - 2 } := by
  show execLdVxK x s = _
  rw [execLdVxK, s.lowestKey?_eq_none.mpr h]
  rfl

/-! ### Sound -/

/-- SOUND_ON on numbers (60_exceptions.md R128). -/
theorem State.soundOn_iff (s : State) : s.soundOn = true ↔ s.st.toNat ≠ 0 := by
  rw [State.soundOn, Bool.not_eq_true', decide_eq_false_iff_not]
  exact not_congr BitVec.toNat_inj.symm

/-! ### The waiting step -/

/-- Putting PC back by 2 undoes the advance of the fetch. -/
theorem State.begin_pc_sub (s : State) : s.begin.pc - 2 = s.pc :=
  BitVec.add_sub_cancel s.pc 2

/-- A running engine that waits in FX0A: the step leaves PC where it was and ends with the timer update
(R110). -/
theorem stepTick_of_waiting (tick : Bool) (s : State) (x : Reg) (hf : s.fault = .none)
    (hb : s.fetchInBounds = true) (hd : decodeWord s.fetchWord = .ok (.ldVxK x))
    (hk : ∀ k : Fin 16, s.keys[k] = false) : stepTick tick s = .next (s.stopped.finish tick) := by
  have hwait : exec (.ldVxK x) s.begin = .next s.stopped := by
    rw [exec_ldVxK_of_none s.begin x hk, s.begin_pc_sub]
    rfl
  rw [stepTick_of_ok tick s _ hf hb hd, hwait, completeResult, State.complete_of_none s.stopped tick hf]

end Sys2Proof.Machine

namespace Sys2Proof.Proofs

open Sys2Proof.Machine

/-- Settles O46, by the fault table above 15 and the named key up to 15. -/
theorem keySkips : Obligations.KeySkips := by
  unfold Obligations.KeySkips
  refine ⟨Laws.row_skp, Laws.row_sknp, fun s x => ⟨fun hout => ?_, fun k hk => ?_⟩⟩
  · exact ⟨takesFault_of_faultOf_eq (if_pos hout) (by decide), takesFault_of_faultOf_eq (if_pos hout) (by decide)⟩
  · exact ⟨exec_skp_of_key s x k hk, exec_sknp_of_key s x k hk⟩

/-- Settles O47: FX07 is one register write, the other two write a timer, and SOUND_ON reads ST as it then
stands. -/
theorem timerRegisterMoves : Obligations.TimerRegisterMoves :=
  ⟨Laws.row_ldVxDt, Laws.row_ldDt, Laws.row_ldSt, fun s _ =>
    ⟨regsBecome_of_setV rfl rfl, rfl, rfl, s.soundOn_iff, State.soundOn_iff _⟩⟩

/-- Settles O48: the key found is the lowest pressed one; with none, the waiting step ends like any other, with
the closed form of the timer update. -/
theorem keyWaitTakesLowestKey : Obligations.KeyWaitTakesLowestKey := by
  unfold Obligations.KeyWaitTakesLowestKey
  refine ⟨Laws.row_ldVxK, fun s x k hk hlow => ?_, fun s x hk => ⟨exec_ldVxK_of_none s x hk, ?_⟩⟩
  · exact regsBecome_of_setV (exec_ldVxK_of_lowest s x k ((s.lowestKey?_eq_some k).mpr ⟨hk, hlow⟩))
      (byte_ofNat_toNat (by omega))
  · rintro tick ⟨hf, hb⟩ hd
    refine ⟨countDown tick s.dt, countDown tick s.st, countDown_toNat tick s.dt, countDown_toNat tick s.st, ?_⟩
    rw [stepTick_of_waiting tick s x hf hb hd hk, State.finish_eq, ← beeps_eq]
    rfl

end Sys2Proof.Proofs

/-! ## Fault entry and the timers (60_exceptions.md R116 to R121, R127, R129) -/

namespace Sys2Proof.Machine

/-! ### What an instruction does to the timers -/

/-- DT and ST, side by side. -/
def State.timers (s : State) : Byte × Byte := (s.dt, s.st)

/-- DT and ST as an instruction leaves them: FX15 and FX18 alone write one (45_keypad_timer.md R111, R112). -/
def State.timersAfter (s : State) : Instr → Byte × Byte
  | .ldDt x => (s.getV x, s.st)
  | .ldSt x => (s.dt, s.getV x)
  | _ => s.timers

theorem State.timers_withPc (s : State) (a : Word) : (s.withPc a).timers = s.timers := rfl

theorem State.timers_skipIf (s : State) (c : Bool) : (s.skipIf c).timers = s.timers := by
  rw [State.skipIf_eq, State.timers_withPc]

theorem State.timers_shiftBy (s : State) (out : Byte → Bool) (move : Byte → Byte) (x y : Reg) :
    (s.shiftBy out move x y).timers = s.timers := by
  unfold State.shiftBy
  split <;> rfl

theorem State.timers_advanceI (s : State) (n : Nat) : (s.advanceI n).timers = s.timers := by
  rw [State.advanceI_eq]; rfl

theorem State.timers_writeBytes (s : State) (a : Nat) (bs : List Byte) : (s.writeBytes a bs).timers = s.timers := by
  rw [State.writeBytes_eq]; rfl

theorem State.timers_randomByte (s : State) : s.randomByte.2.timers = s.timers := by
  rw [State.randomByte_frame]; rfl

theorem State.timers_of_push? (s : State) {t : State} {a : Word} (h : s.push? a = some t) : t.timers = s.timers := by
  obtain ⟨-, rfl⟩ := State.push?_eq_some s t a h
  rfl

theorem State.timers_of_pop? (s : State) {t : State} {a : Word} (h : s.pop? = some (a, t)) :
    t.timers = s.timers := by
  obtain ⟨-, -, rfl⟩ := State.pop?_eq_some s t a h
  rfl

/-- Whether it completes or faults, an instruction leaves the timers as `State.timersAfter` says. -/
theorem timers_of_exec {i : Instr} {s t : State} (h : exec i s = .next t) : t.timers = s.timersAfter i := by
  cases i with
  | nop | cls | jp | ldImm | addImm | ldReg | orReg | andReg | xorReg | addReg | sub | subn | ldI | jpV0 | ldVxDt
  | ldDt | ldSt | addI | ldF => cases h; rfl
  | seImm | sneImm | seReg | sneReg => cases h; exact s.timers_skipIf _
  | shr x y | shl x y => cases h; exact s.timers_shiftBy _ _ x y
  | rnd => cases h; exact s.timers_randomByte
  | ret =>
    simp only [exec, execRet] at h
    split at h <;> cases h
    case h_1 => rfl
    case h_2 hp => exact (State.timers_withPc _ _).trans (s.timers_of_pop? hp)
  | call =>
    simp only [exec, execCall] at h
    split at h <;> cases h
    case h_1 => rfl
    case h_2 hp => exact (State.timers_withPc _ _).trans (s.timers_of_push? hp)
  | drw | ldVxK =>
    simp only [exec, execDrw, execLdVxK] at h
    split at h <;> cases h <;> rfl
  | skp | sknp =>
    simp only [exec, execSkp, execSknp] at h
    split at h <;> cases h
    · rfl
    · exact s.timers_skipIf _
  | ldB =>
    simp only [exec, execLdB] at h
    split at h <;> cases h
    · exact s.timers_writeBytes _ _
    · rfl
  | ldMemVx =>
    simp only [exec, execLdMemVx] at h
    split at h <;> cases h
    · exact (State.timers_advanceI _ _).trans (s.timers_writeBytes _ _)
    · rfl
  | ldVxMem =>
    simp only [exec, execLdVxMem] at h
    split at h <;> cases h
    · exact State.timers_advanceI _ _
    · rfl

theorem State.timersToUpdate_of_ok (s : State) (i : Instr) (hd : decodeWord s.fetchWord = .ok i) :
    (s.dtToUpdate, s.stToUpdate) = s.timersAfter i := by
  unfold State.dtToUpdate State.stToUpdate
  rw [hd]
  cases i <;> rfl

theorem State.timersToUpdate_of_error (s : State) (r : Reject) (hd : decodeWord s.fetchWord = .error r) :
    (s.dtToUpdate, s.stToUpdate) = s.timers := by
  unfold State.dtToUpdate State.stToUpdate
  rw [hd]
  rfl

/-! ### The step of a running engine: it faults, or it finishes -/

/-- The fault table reads neither PC nor the outputs. -/
theorem faultOf_begin (i : Instr) (s : State) : faultOf i s.begin = faultOf i s := by cases i <;> rfl

/-- FX15 and FX18 read a register, which the start of a step leaves alone. -/
theorem State.timersAfter_begin (s : State) (i : Instr) : s.begin.timersAfter i = s.timersAfter i := by
  cases i <;> rfl

/-- Fault entry in the step (60_exceptions.md R121): the advance of PC is undone, and the word of the
instruction is the fetched one. -/
theorem stepTick_of_faultOf_ne_none (tick : Bool) (s : State) (i : Instr) (hs : s.Running)
    (hd : decodeWord s.fetchWord = .ok i) (hc : faultOf i s ≠ .none) :
    stepTick tick s = .next { s with
      fault := faultOf i s, faultPc := s.pc, faultWord := s.fetchWord, out := Outputs.cleared } := by
  obtain ⟨hf, hb⟩ := hs
  obtain ⟨-, he⟩ := (exec_cases i s.begin).resolve_left fun ⟨hn, _⟩ => hc (faultOf_begin i s ▸ hn)
  rw [stepTick_of_ok tick s i hf hb hd, he, State.raiseFault_begin, faultOf_begin,
    Laws.encodeWord_of_decodeWord _ i hd, completeResult, State.complete_of_fault _ _ hc]

/-- An instruction with no fault in the table completes, and the step ends with the timer update. -/
theorem stepTick_of_faultOf_eq_none (tick : Bool) (s : State) (i : Instr) (hs : s.Running)
    (hd : decodeWord s.fetchWord = .ok i) (hc : faultOf i s = .none) :
    ∃ u : State, u.fault = .none ∧ u.timers = (s.dtToUpdate, s.stToUpdate) ∧
      stepTick tick s = .next (u.finish tick) := by
  obtain ⟨hf, hb⟩ := hs
  obtain ⟨-, u, he, hu⟩ := (exec_cases i s.begin).resolve_right fun ⟨hn, _⟩ => hn (faultOf_begin i s ▸ hc)
  have huf : u.fault = .none := hu.fault.trans hf
  refine ⟨u, huf, ?_, ?_⟩
  · rw [timers_of_exec he, s.timersAfter_begin, s.timersToUpdate_of_ok i hd]
  · rw [stepTick_of_ok tick s i hf hb hd, he, completeResult, u.complete_of_none tick huf]

/-- What a step of any engine comes to: it stops where nothing runs, it enters a fault, or it runs the timer
update on the timers the word left. -/
theorem stepTick_stops_faults_or_finishes (tick : Bool) (s t : State) (h : stepTick tick s = .next t) :
    (¬ s.Running ∧ t = s.stopped) ∨
    (s.Running ∧ ∃ c, c ≠ FaultCause.none ∧
      t = { s with fault := c, faultPc := s.pc, faultWord := s.fetchWord, out := Outputs.cleared }) ∨
    (s.Running ∧ ∃ u : State, u.fault = .none ∧ u.timers = (s.dtToUpdate, s.stToUpdate) ∧ t = u.finish tick) := by
  obtain ⟨hf, ht⟩ | ⟨-, hb, ht⟩ | ⟨hf, hb, ⟨r, hd⟩, ht⟩ | ⟨hf, hb, i, -, hd, -, -⟩ := stepTick_cases tick s t h
  · exact .inl ⟨fun ⟨hf', _⟩ => hf hf', ht⟩
  · exact .inl ⟨fun ⟨_, hb'⟩ => Bool.false_ne_true (hb.symm.trans hb'), ht⟩
  · exact .inr (.inr ⟨⟨hf, hb⟩, s.begin.unknownWord s.fetchWord, hf, (s.timersToUpdate_of_error r hd).symm, ht⟩)
  · by_cases hc : faultOf i s = .none
    · obtain ⟨u, huf, hut, hu⟩ := stepTick_of_faultOf_eq_none tick s i ⟨hf, hb⟩ hd hc
      exact .inr (.inr ⟨⟨hf, hb⟩, u, huf, hut, Host.Outcome.next.inj (h.symm.trans hu)⟩)
    · have hu := stepTick_of_faultOf_ne_none tick s i ⟨hf, hb⟩ hd hc
      exact .inr (.inl ⟨⟨hf, hb⟩, _, hc, Host.Outcome.next.inj (h.symm.trans hu)⟩)

end Sys2Proof.Machine

namespace Sys2Proof.Proofs

open Sys2Proof.Machine

/-- Settles O10: of a step's three ends only fault entry leaves FAULT nonzero. -/
theorem faultEntryIsPrecise : Obligations.FaultEntryIsPrecise := by
  unfold Obligations.FaultEntryIsPrecise
  intro tick s t hf h ht
  obtain ⟨-, rfl⟩ | ⟨⟨-, hb⟩, c, -, rfl⟩ | ⟨-, u, hu, -, rfl⟩ := stepTick_stops_faults_or_finishes tick s t h
  · exact absurd hf ht
  · exact ⟨s.fetchInBounds_iff.mp hb, rfl⟩
  · exact absurd hu ht

/-- Settles O11, by the table's two answers for an instruction; an unknown word raises no fault. -/
theorem stepFaultsAsTabled : Obligations.StepFaultsAsTabled := by
  unfold Obligations.StepFaultsAsTabled
  refine ⟨⟨rfl, rfl, rfl, rfl, rfl⟩, fun tick s hs => ⟨fun i hd hc => ?_, fun i hd hc => ?_, fun r hd => ?_⟩⟩
  · exact stepTick_of_faultOf_ne_none tick s i hs hd hc
  · obtain ⟨u, huf, -, hu⟩ := stepTick_of_faultOf_eq_none tick s i hs hd hc
    exact ⟨u.finish tick, hu, huf⟩
  · obtain ⟨hf, hb⟩ := hs
    exact ⟨_, stepTick_of_error tick s r hf hb hd, hf⟩

/-- Settles O14: a step that stops or faults clears the outputs and leaves the timers; one that finishes runs the
timer update on what its word left. -/
theorem timersFollowTicks : Obligations.TimersFollowTicks := by
  unfold Obligations.TimersFollowTicks
  intro tick s t h
  obtain ⟨-, rfl⟩ | ⟨-, c, -, rfl⟩ | ⟨-, u, -, hu, rfl⟩ := stepTick_stops_faults_or_finishes tick s t h
  · simp [State.stopped_eq]
  · simp [Outputs.cleared]
  · obtain ⟨hdt, hst⟩ := Prod.mk.inj hu
    simp [State.finish_eq, hdt, hst, countDown_toNat, timerAfter, beeps_eq]

end Sys2Proof.Proofs

/-! ## Construction and program load (70_reset_and_hazards.md R135 to R137, R143) -/

namespace Sys2Proof

/-- R135's conditions on numbers. -/
theorem Config.valid_iff (c : Config) :
    c.valid = true ↔ 1 ≤ c.memSize ∧ c.memSize ≤ 65536 ∧ c.programStart ≤ c.memSize ∧
      c.fontBase + 80 ≤ c.memSize ∧ 1 ≤ c.displayW ∧ 1 ≤ c.displayH ∧ c.font.length = 80 := by
  simp only [Config.valid, Config.memSizeValid, Config.programStartValid, Config.fontPlaceValid,
    Config.displayValid, Config.fontLengthValid, Bool.and_eq_true, decide_eq_true_eq, and_assoc]

end Sys2Proof

namespace Sys2Proof.Machine

/-! ### Construction -/

theorem build_of_valid (c : Config) (h : c.valid = true) : build c = .next (State.init c) := if_pos h

theorem build_of_not_valid (c : Config) (h : ¬ c.valid = true) : build c = .refused .invalidConfiguration :=
  if_neg h

/-- `build` answers no state but the reset state. -/
theorem eq_init_of_build (c : Config) (t : State) (h : build c = .next t) : t = State.init c := by
  unfold build at h
  split at h <;> cases h
  rfl

/-- The reset state of a valid configuration meets the invariant: no cell of memory is listed, the display is
blank and no fault is recorded. -/
theorem State.inv_init (c : Config) (h : c.valid = true) : (State.init c).Inv :=
  ⟨h, ⟨List.Pairwise.nil, fun _ hp => absurd hp List.not_mem_nil⟩, Display.sized_blank _ _,
    fun _ => ⟨rfl, rfl⟩, fun hf => absurd rfl hf⟩

theorem State.init_pc_toNat (c : Config) (h : c.programStart < 65536) :
    (State.init c).pc.toNat = c.programStart :=
  (BitVec.toNat_ofNat c.programStart 16).trans (Nat.mod_eq_of_lt h)

theorem State.readByte_init (c : Config) (a : Nat) : (State.init c).readByte a = resetByte c a := rfl

theorem resetByte_font (c : Config) (k : Nat) (h : k < 80) : resetByte c (c.fontBase + k) = c.font.getD k 0 := by
  have hin : c.fontBase ≤ c.fontBase + k ∧ c.fontBase + k < c.fontBase + 80 := by omega
  rw [resetByte, if_pos hin, Nat.add_sub_cancel_left]

theorem resetByte_of_outside_font (c : Config) (a : Nat) (h : a < c.fontBase ∨ c.fontBase + 80 ≤ a) :
    resetByte c a = 0 :=
  if_neg (show ¬ (c.fontBase ≤ a ∧ a < c.fontBase + 80) by omega)

/-! ### Program load -/

theorem State.loadProgram_of_tooLarge (s : State) (bs : List Byte)
    (h : s.cfg.memSize - s.cfg.programStart < bs.length) : s.loadProgram bs = (.programTooLarge, s) :=
  if_pos h

theorem State.loadProgram_of_fits (s : State) (bs : List Byte)
    (h : bs.length ≤ s.cfg.memSize - s.cfg.programStart) :
    s.loadProgram bs = (.ok, s.writeBytes s.cfg.programStart bs) :=
  if_neg (Nat.not_lt.mpr h)

end Sys2Proof.Machine

namespace Sys2Proof.Proofs

open Sys2Proof.Machine

/-- Settles O20: a program that fits is one store of bytes at PROGRAM_START. -/
theorem loadProgramWritesItsWindow : Obligations.LoadProgramWritesItsWindow := by
  unfold Obligations.LoadProgramWritesItsWindow
  rintro s bs ⟨-, hm, -, -⟩
  refine ⟨s.loadProgram_of_tooLarge bs, fun hfits => ?_⟩
  obtain ⟨m, he, hread, hframe⟩ := s.exists_mem_of_writeBytes hm s.cfg.programStart bs
  refine ⟨m, ?_, fun k hk => ?_, hframe⟩
  · rw [s.loadProgram_of_fits bs hfits, he]
  · exact (hread k hk).trans (List.getD_eq_getElem bs 0 hk).symm

/-- Settles O18: the model's validity check is R135's conditions. -/
theorem buildRefusesInvalidConfigurations : Obligations.BuildRefusesInvalidConfigurations := by
  unfold Obligations.BuildRefusesInvalidConfigurations
  intro c
  rw [← c.valid_iff]
  exact ⟨fun h => ⟨_, build_of_valid c h, State.inv_init c h⟩, build_of_not_valid c⟩

/-- Settles O19: the fields of the reset state, whose memory reads as its reset contents everywhere. -/
theorem constructionResetValues : Obligations.ConstructionResetValues := by
  unfold Obligations.ConstructionResetValues
  intro c t h
  obtain rfl := eq_init_of_build c t h
  have hv (r : Reg) : (State.init c).getV r = 0 := Vector.getElem_replicate r.isLt
  have hstack (j : Fin 16) : (State.init c).stack[j] = 0 := Vector.getElem_replicate j.isLt
  have hkeys (k : Fin 16) : (State.init c).keys[k] = false := Vector.getElem_replicate k.isLt
  have hfont (k : Nat) (hk : k < 80) : (State.init c).readByte (c.fontBase + k) = c.font.getD k 0 :=
    (State.readByte_init c _).trans (resetByte_font c k hk)
  have hzero (a : Nat) (ha : a < c.fontBase ∨ c.fontBase + 80 ≤ a) : (State.init c).readByte a = 0 :=
    (State.readByte_init c a).trans (resetByte_of_outside_font c a ha)
  exact ⟨rfl, hv, State.init_pc_toNat c, rfl, rfl, hstack, rfl, rfl, Display.sized_blank _ _,
    Display.get_blank _ _, hkeys, rfl, rfl, rfl, rfl, hfont, hzero⟩

end Sys2Proof.Proofs

/-! ## Encoding and decoding are inverse; the unknown words (30_encoding.md R69, R75) -/

namespace Sys2Proof.Laws

/-- Decoding gives an encoded instruction back: each arm of the decoder finds the fixed bits the encoder placed,
and reads the operands where it placed them. -/
theorem decodeWord_encodeWord (i : Instr) : decodeWord (encodeWord i) = .ok i := by
  cases i with
  | nop | cls | ret => rfl
  | jp | call | ldI | jpV0 | seImm | sneImm | ldImm | addImm | rnd | drw => simp [encodeWord, decodeWord]
  | seReg | sneReg => simp [encodeWord, decodeWord, requireN0]
  | ldReg | orReg | andReg | xorReg | addReg | sub | shr | subn | shl => simp [encodeWord, decodeWord, decode8]
  | skp | sknp => simp [encodeWord, decodeWord, decodeE]
  | ldVxDt | ldVxK | ldDt | ldSt | addI | ldF | ldB | ldMemVx | ldVxMem =>
    simp [encodeWord, decodeWord, decodeF]

/-- The two bytes of the word that two bytes make. -/
theorem wordBytes_bytesWord (hi lo : Byte) : wordBytes (bytesWord hi lo) = [hi, lo] := by
  rw [wordBytes, bytesWord, BitVec.extractLsb'_append_eq_left, BitVec.extractLsb'_append_eq_right]

theorem decode_encode_append (i : Instr) (rest : List Byte) : decode (encode i ++ rest) = .ok (i, rest) := by
  show decode (_ :: _ :: rest) = _
  rw [decode_cons_cons, bytesWord_wordBytes, decodeWord_encodeWord]
  rfl

theorem decode_cons_cons_eq_ok {hi lo : Byte} {bs rest : List Byte} {i : Instr} :
    decode (hi :: lo :: bs) = .ok (i, rest) ↔ decodeWord (bytesWord hi lo) = .ok i ∧ bs = rest := by
  rw [decode_cons_cons]
  cases decodeWord (bytesWord hi lo) <;> simp [Except.map]

/-! ### The unknown words (30_encoding.md R69): each arm of the decoder rejects what it lists no instruction for -/

theorem decode0_error_iff (w : Word) :
    (∃ r, decode0 w = .error r) ↔ (fieldNNN w).toNat ∉ [0x000, 0x0E0, 0x0EE] := by
  unfold decode0
  split <;> simp_all

theorem decode8_error_iff (w : Word) :
    (∃ r, decode8 w = .error r) ↔ (fieldN w).toNat ∈ [8, 9, 0xA, 0xB, 0xC, 0xD, 0xF] := by
  have hn := (fieldN w).isLt
  unfold decode8
  split <;> simp_all only [imp_false]
  case h_10 => simp; omega
  all_goals simp

theorem decodeE_error_iff (w : Word) : (∃ r, decodeE w = .error r) ↔ (fieldKK w).toNat ∉ [0x9E, 0xA1] := by
  unfold decodeE
  split <;> simp_all

theorem decodeF_error_iff (w : Word) :
    (∃ r, decodeF w = .error r) ↔
      (fieldKK w).toNat ∉ [0x07, 0x0A, 0x15, 0x18, 0x1E, 0x29, 0x33, 0x55, 0x65] := by
  unfold decodeF
  split <;> simp_all

theorem requireN0_error_iff (w : Word) (i : Instr) (e : Reject) :
    (∃ r, requireN0 w i e = .error r) ↔ (fieldN w).toNat ≠ 0 := by
  rw [ne_eq, show (fieldN w).toNat = 0 ↔ fieldN w = 0 from BitVec.toNat_inj (y := 0)]
  by_cases hn : fieldN w = 0 <;> simp only [requireN0, hn, if_true, if_false, reduceCtorEq, Except.error.injEq,
    exists_false, exists_eq', not_true_eq_false, not_false_eq_true]

end Sys2Proof.Laws

namespace Sys2Proof.Proofs

open Sys2Proof.Laws

/-- Settles O2: the two bytes make the encoded word again, which decodes to its instruction. -/
theorem decodeInvertsEncode : Obligations.DecodeInvertsEncode := decode_encode_append

/-- Settles O3: only two bytes or more decode, and encoding gives back the word they make
(`encodeWord_of_decodeWord`). -/
theorem encodeInvertsDecode : Obligations.EncodeInvertsDecode := by
  unfold Obligations.EncodeInvertsDecode
  intro bs rest i h
  match bs with
  | [] | [_] => cases h
  | hi :: lo :: bs =>
    obtain ⟨hd, rfl⟩ := decode_cons_cons_eq_ok.mp h
    rw [encode, encodeWord_of_decodeWord _ i hd, wordBytes_bytesWord]
    rfl

/-- Settles O5, arm by arm of the dispatch on n0: six arms can reject, the other ten never do. -/
theorem unknownWordsAreTheSixClasses : Obligations.UnknownWordsAreTheSixClasses := by
  unfold Obligations.UnknownWordsAreTheSixClasses
  intro w
  dsimp only
  have hlt : fieldOp w < 16 := (w.extractLsb' 12 4).isLt
  rw [← fieldOp_eq, ← fieldNNN_toNat, ← fieldKK_toNat, ← fieldN_toNat]
  unfold decodeWord
  split
  case h_1 hop => rw [decode0_error_iff]; simp [hop]
  case h_6 hop | h_10 hop => rw [requireN0_error_iff]; simp [hop]
  case h_9 hop => rw [decode8_error_iff]; simp [hop]
  case h_15 hop => rw [decodeE_error_iff]; simp [hop]
  case h_16 =>
    have hop : fieldOp w = 0xF := by simp only [imp_false] at *; omega
    rw [decodeF_error_iff]; simp [hop]
  case h_2 hop | h_3 hop | h_4 hop | h_5 hop | h_7 hop | h_8 hop | h_11 hop | h_12 hop | h_13 hop | h_14 hop =>
    simp [hop]

/-- Settles O1, by running the decoder. -/
theorem knownWordsDecode : Obligations.KnownWordsDecode := by
  unfold Obligations.KnownWordsDecode
  decide

end Sys2Proof.Proofs

/-! ## The step and the invariant (10_state.md R37, R38; 60_exceptions.md R122; 70_reset_and_hazards.md R145) -/

namespace Sys2Proof.Machine

/-! ### The step answers, and when it continues -/

theorem exists_exec_eq_next (i : Instr) (s : State) : ∃ t, exec i s = .next t := by
  obtain ⟨-, t, h, -⟩ | ⟨-, h⟩ := exec_cases i s
  · exact ⟨t, h⟩
  · exact ⟨_, h⟩

theorem exists_stepTick_eq_next (tick : Bool) (s : State) : ∃ t, stepTick tick s = .next t := by
  by_cases hf : s.fault = .none
  · cases hb : s.fetchInBounds with
    | false => exact ⟨_, stepTick_of_halt tick s hf hb⟩
    | true =>
      cases hd : decodeWord s.fetchWord with
      | error r => exact ⟨_, stepTick_of_error tick s r hf hb hd⟩
      | ok i =>
        obtain ⟨t, ht⟩ := exists_exec_eq_next i s.begin
        rw [stepTick_of_ok tick s i hf hb hd, ht]
        exact ⟨_, rfl⟩
  · exact ⟨_, stepTick_of_fault tick s hf⟩

/-- A step takes the TICK the host supplied (10_state.md R34; log 2). -/
theorem step_of_ticks_cons (s : State) (b : Bool) (bs : List Bool) (h : s.ticks = b :: bs) :
    step s = stepTick b { s with ticks := bs } := by
  have ht : s.nextTick = b := by rw [State.nextTick, h]
  have hp : s.popTick = s.withTicks bs := by rw [State.popTick, h]
  rw [step, ht, hp]
  rfl

/-- A step takes a free TICK where the host supplied none (log 2). -/
theorem step_of_ticks_nil (s : State) (h : s.ticks = []) :
    step s = stepTick (Config.freeTick s.freeCount) { s with freeCount := s.freeCount + 1 } := by
  have ht : s.nextTick = Config.freeTick s.freeCount := by rw [State.nextTick, h]
  have hp : s.popTick = s.withFreeCount (s.freeCount + 1) := by rw [State.popTick, h]
  rw [step, ht, hp]
  rfl

theorem State.running_iff (s : State) :
    s.Running ↔ s.fault = .none ∧ ¬ s.cfg.memSize ≤ s.pc.toNat + 1 := by
  rw [Nat.not_le, ← State.fetchInBounds_iff]

/-! ### The invariant -/

/-- The invariant reads neither queue nor the counter of free values. -/
theorem State.inv_popTick (s : State) : s.popTick.Inv ↔ s.Inv := by
  rw [State.popTick_eq]
  rfl

theorem State.inv_stopped {s : State} (h : s.Inv) : s.stopped.Inv := by
  obtain ⟨hv, hm, hd, hnone, hsome⟩ := h
  exact ⟨hv, hm, hd, hnone, fun hf => have ⟨hpc, hb, _⟩ := hsome hf; ⟨hpc, hb, rfl⟩⟩

/-- Fault entry in the step of a running engine records a coherent fault. -/
theorem State.inv_raiseFault_begin {s : State} (h : s.Inv) (hb : s.fetchInBounds = true) {c : FaultCause}
    (hc : c ≠ .none) (i : Instr) : (s.begin.raiseFault c i).Inv := by
  obtain ⟨hv, hm, hd, -⟩ := h
  rw [State.raiseFault_begin]
  exact ⟨hv, hm, hd, fun hf => absurd hf hc, fun _ => ⟨rfl, hb, rfl⟩⟩

/-- While no fault is held, the invariant asks nothing of PC, the timers and the outputs. -/
theorem State.inv_of_fault_eq_none {s : State} (h : s.Inv) (hf : s.fault = .none) (a : Word) (dt st : Byte)
    (o : Outputs) : State.Inv { s with pc := a, dt := dt, st := st, out := o } := by
  obtain ⟨hv, hm, hd, hnone, -⟩ := h
  exact ⟨hv, hm, hd, hnone, fun hne => absurd hf hne⟩

/-- An instruction that completes writes nothing of the fault record or the configuration, and keeps the forms of
memory and display. -/
theorem State.inv_of_completes {s t : State} (h : s.Inv) (hf : s.fault = .none) (ht : Completes s t) : t.Inv := by
  obtain ⟨hv, hm, hd, hnone, -⟩ := h
  obtain ⟨hpc, hw⟩ := hnone hf
  refine ⟨?_, ?_, ?_, fun _ => ⟨ht.faultPc.trans hpc, ht.faultWord.trans hw⟩, fun hne => absurd (ht.fault.trans hf) hne⟩
  · exact ht.cfg ▸ hv
  · exact ht.cfg ▸ ht.wf hm
  · exact ht.cfg ▸ ht.sized hd

theorem State.inv_of_exec_begin {i : Instr} {s u : State} (h : s.Inv) (hf : s.fault = .none)
    (hb : s.fetchInBounds = true) (he : exec i s.begin = .next u) : u.Inv := by
  obtain ⟨-, t, het, ht⟩ | ⟨hc, her⟩ := exec_cases i s.begin
  · obtain rfl := Host.Outcome.next.inj (he.symm.trans het)
    have hbegin : s.begin.Inv := State.inv_of_fault_eq_none h hf _ _ _ _
    exact State.inv_of_completes hbegin hf ht
  · obtain rfl := Host.Outcome.next.inj (he.symm.trans her)
    exact State.inv_raiseFault_begin h hb hc i

theorem State.inv_complete {s : State} (h : s.Inv) (tick : Bool) : (s.complete tick).Inv := by
  by_cases hf : s.fault = .none
  · rw [s.complete_of_none tick hf]
    exact State.inv_of_fault_eq_none h hf _ _ _ _
  · rwa [s.complete_of_fault tick hf]

theorem State.inv_of_stepTick {tick : Bool} {s t : State} (h : s.Inv) (hstep : stepTick tick s = .next t) :
    t.Inv := by
  obtain ⟨-, rfl⟩ | ⟨-, -, rfl⟩ | ⟨hf, -, -, rfl⟩ | ⟨hf, hb, i, u, -, he, rfl⟩ := stepTick_cases tick s t hstep
  · exact State.inv_stopped h
  · exact State.inv_stopped h
  · exact State.inv_of_fault_eq_none h hf _ _ _ _
  · exact State.inv_complete (State.inv_of_exec_begin h hf hb he) tick

/-! ### The host's moves -/

/-- A store inside MEM_SIZE keeps the invariant: it writes MEM alone. -/
theorem State.inv_writeBytes {s : State} (h : s.Inv) (a : Nat) (bs : List Byte)
    (hlen : a + bs.length ≤ s.cfg.memSize) : (s.writeBytes a bs).Inv := by
  obtain ⟨hv, hm, hd, hr⟩ := h
  have hwf := s.wf_writeBytes hm a bs hlen
  rw [s.writeBytes_eq a bs] at hwf ⊢
  exact ⟨hv, hwf, hd, hr⟩

/-- A program that fits lies inside MEM_SIZE, since a valid PROGRAM_START does (R135). -/
theorem State.inv_loadProgram {s : State} (h : s.Inv) (bs : List Byte) : (s.loadProgram bs).2.Inv := by
  by_cases hfits : bs.length ≤ s.cfg.memSize - s.cfg.programStart
  · have ⟨hv, _⟩ := h
    obtain ⟨-, -, hstart, -⟩ := s.cfg.valid_iff.mp hv
    rw [s.loadProgram_of_fits bs hfits]
    exact State.inv_writeBytes h _ bs (by omega)
  · rwa [s.loadProgram_of_tooLarge bs (Nat.lt_of_not_le hfits)]

end Sys2Proof.Machine

namespace Sys2Proof.Proofs

open Sys2Proof.Machine

/-- Settles O15: taking TICK leaves all that the invariant reads, and each of the step's four cases keeps it. -/
theorem stepKeepsInvariant : Obligations.StepKeepsInvariant := by
  unfold Obligations.StepKeepsInvariant
  intro s t h hstep
  exact State.inv_of_stepTick (s.inv_popTick.mpr h) hstep

/-- Settles O17: the keypad and the two queues are no part of the invariant, a loaded program is a store inside
MEM_SIZE, and reset builds from the same valid configuration. -/
theorem hostMovesKeepInvariant : Obligations.HostMovesKeepInvariant := by
  unfold Obligations.HostMovesKeepInvariant
  intro s h
  exact ⟨fun _ => h, State.inv_loadProgram h, fun _ => h, fun _ => h, State.inv_init s.cfg h.1⟩

/-- Settles O16: the default configuration is valid. -/
theorem resetMeetsInvariant : Obligations.ResetMeetsInvariant := State.inv_init Config.default rfl

/-- Settles O12: in each of the step's four cases, since every instruction answers a next state. -/
theorem everyStepAnswersNext : Obligations.EveryStepAnswersNext :=
  fun s => exists_stepTick_eq_next s.nextTick s.popTick

/-- Settles O13: a step that stops clears CONT and is a halt or a faulted engine's, one that faults clears it
too, and one that finishes sets it. -/
theorem contAndRunEnd : Obligations.ContAndRunEnd := by
  unfold Obligations.ContAndRunEnd
  intro tick s t h
  obtain ⟨hs, rfl⟩ | ⟨hs, c, hc, rfl⟩ | ⟨hs, u, hu, -, rfl⟩ := stepTick_stops_faults_or_finishes tick s t h
  all_goals rw [State.running_iff] at hs
  · by_cases hf : s.fault = .none
    · have hb := Decidable.not_not.mp fun hb => hs ⟨hf, hb⟩
      simp [State.stopped, State.runEnd, Outputs.cleared, hf, hb]
    · simp [State.stopped, State.runEnd, Outputs.cleared, hf]
  · simp [State.runEnd, Outputs.cleared, hc, hs]
  · simp [State.finish, State.runEnd, hu, hs]

/-- Settles O9: nothing but FAULT decides that the step stops, and no host move here writes FAULT. -/
theorem faultedEngineIsQuiescent : Obligations.FaultedEngineIsQuiescent := by
  unfold Obligations.FaultedEngineIsQuiescent
  intro tick s hf
  refine ⟨stepTick_of_fault tick s hf, fun k => stepTick_of_fault tick _ hf, fun bs => ?_⟩
  rw [State.loadProgram_eq_withMem]
  exact stepTick_of_fault tick _ hf

/-- Settles O6: the decoder reads the fetched word from the two bytes at PC; the clauses on `step` are the two
cases of the TICK queue. -/
theorem stepRunsDecodedInstruction : Obligations.StepRunsDecodedInstruction := by
  unfold Obligations.StepRunsDecodedInstruction
  intro s i rest
  refine ⟨fun tick t hf hb hd he => ?_, fun b bs ht => ?_, fun ht => ?_⟩
  · obtain ⟨hdw, -⟩ := Laws.decode_cons_cons_eq_ok.mp hd
    refine ⟨countDown tick t.dt, countDown tick t.st, countDown_toNat tick t.dt, countDown_toNat tick t.st, ?_⟩
    rw [stepTick_of_ok tick s i hf (s.fetchInBounds_iff.mpr hb) hdw, s.begin_eq, he, completeResult, State.complete,
      State.finish_eq, beeps_eq]
  · exact step_of_ticks_cons s b bs ht
  · exact step_of_ticks_nil s ht

end Sys2Proof.Proofs

/-! ## One instruction after another, and the drawn byte (41_display.md R77; 43_alu.md R100;
95_test_vectors.md L1.6, L1.8, L1.10) -/

namespace Sys2Proof.Machine

/-! ### DRW twice -/

/-- Neither X nor Y is VF, so what DRW writes does not move the sprite. -/
theorem State.drawCells_withDisp_setVF (s : State) (d : Display) (hit : Bool) {x y : Reg} (n : BitVec 4)
    (hx : x ≠ VF) (hy : y ≠ VF) : ((s.withDisp d).setVF hit).drawCells x y n = s.drawCells x y n := by
  have hv (r : Reg) (hr : r ≠ VF) : ((s.withDisp d).setVF hit).getV r = s.getV r :=
    ((s.withDisp d).getV_setV VF r _).trans (if_neg hr)
  unfold State.drawCells
  rw [hv x hx, hv y hy]
  rfl

/-- The second of two draws of one sprite restores the display, and VF is its own hit. -/
theorem exec_drw_drw {s t : State} {x y : Reg} {n : BitVec 4} (hx : x ≠ VF) (hy : y ≠ VF)
    (hin : ∀ k < n.toNat, s.ireg.toNat + k < s.cfg.memSize) (ht : exec (.drw x y n) s = .next t) :
    exec (.drw x y n) t = .next ((t.withDisp s.disp).setVF
      ((s.disp.xorCells (s.drawCells x y n)).1.xorCells (s.drawCells x y n)).2) := by
  rw [exec_drw_of_inBounds s x y n hin] at ht
  have ht := (Host.Outcome.next.inj ht).symm
  have hcells : t.drawCells x y n = s.drawCells x y n := by rw [ht, State.drawCells_withDisp_setVF _ _ _ n hx hy]
  have hdisp : t.disp = (s.disp.xorCells (s.drawCells x y n)).1 := by rw [ht]; rfl
  have hin' : ∀ k < n.toNat, t.ireg.toNat + k < t.cfg.memSize := by rw [ht]; exact hin
  rw [exec_drw_of_inBounds t x y n hin', hcells, hdisp, Display.xorCells_xorCells]

/-- A byte other than 0 has a bit set. -/
theorem exists_getMsbD_of_ne_zero (b : Byte) (h : b ≠ 0) : ∃ c < 8, b.getMsbD c = true := by
  by_contra hno
  refine h (BitVec.eq_of_getMsbD_eq fun c hc => ?_)
  exact (Bool.eq_false_iff.mpr fun hb => hno ⟨c, hc, hb⟩).trans BitVec.getMsbD_zero.symm

/-- A sprite with a set bit has a cell. -/
theorem State.exists_mem_drawCells (s : State) (x y : Reg) (n : BitVec 4)
    (h : ∃ k < n.toNat, s.readByte (s.ireg.toNat + k) ≠ 0) : ∃ p, p ∈ s.drawCells x y n := by
  obtain ⟨k, hk, hb⟩ := h
  obtain ⟨c, hc, hbit⟩ := exists_getMsbD_of_ne_zero _ hb
  refine ⟨_, (mem_spriteCells _ _ _ _ _ _ _).mpr ⟨k, ?_, c, hc, ?_, rfl⟩⟩
  · rwa [s.length_indirectBytes]
  · rwa [s.getD_indirectBytes _ _ hk]

/-- Cells drawn on a blank display and drawn again collide: a cell drawn once is lit, any other is drawn twice. -/
theorem Display.hit_xorCells_of_blank {w h : Nat} {d : Display} (hd : d.sized w h) (hblank : ∀ y x, d.get y x = false)
    {cs : List (Nat × Nat)} (hcs : ∀ p ∈ cs, p.1 < h ∧ p.2 < w) {p : Nat × Nat} (hp : p ∈ cs) :
    ((d.xorCells cs).1.xorCells cs).2 = true := by
  obtain ⟨py, px⟩ := p
  rw [Display.xorCells_hit _ (Display.sized_xorCells d hd cs) cs hcs]
  refine ⟨(py, px), hp, ?_⟩
  show (d.xorCells cs).1.get py px = true ∨ 2 ≤ cs.count (py, px)
  rw [Display.get_xorCells d hd cs hcs, hblank, Bool.false_xor, decide_eq_true_eq]
  have hpos := List.count_pos_iff.mpr hp
  omega

/-! ### RND with drawn bytes (43_alu.md R100) -/

/-- What RND answers with RNG_MODE = draw. -/
theorem exec_rnd_of_draw (s : State) (x : Reg) (kk : Byte) (h : s.cfg.rngMode = .draw) :
    exec (.rnd x kk) s = .next (s.popDraw.setV x (s.nextDraw &&& kk)) := by
  show execRnd x kk s = _
  simp only [execRnd, State.randomByte, h]

end Sys2Proof.Machine

namespace Sys2Proof.Proofs

open Sys2Proof.Machine

/-- Settles O23: the second draw toggles the same cells, and each toggle undoes its own. -/
theorem drawingTwiceRestoresDisplay : Obligations.DrawingTwiceRestoresDisplay := by
  unfold Obligations.DrawingTwiceRestoresDisplay
  intro s t x y n hx hy hin ht
  exact ⟨_, exec_drw_drw hx hy hin ht, rfl⟩

/-- Settles O24: the sprite has a cell, and the second draw finds one lit. -/
theorem secondDrawCollides : Obligations.SecondDrawCollides := by
  unfold Obligations.SecondDrawCollides
  intro s t x y n hs hx hy hblank hin hbyte ht
  obtain ⟨p, hp⟩ := s.exists_mem_drawCells x y n hbyte
  obtain ⟨hv, -, hd, -⟩ := hs
  refine ⟨_, exec_drw_drw hx hy hin ht, ?_, hblank⟩
  rw [Display.hit_xorCells_of_blank hd hblank (s.drawCells_bounds hv x y n) hp]
  exact State.getV_setV_same _ VF 1

/-- Settles O29: RET reads the slot that CALL wrote. -/
theorem callThenRetReturns : Obligations.CallThenRetReturns := by
  unfold Obligations.CallThenRetReturns
  intro s t u nnn hsp ht husp hustack
  rw [exec_call_of_lt s nnn hsp] at ht
  obtain rfl := Host.Outcome.next.inj ht
  refine ⟨_, exec_ret_of_sp_eq_succ u ⟨s.sp.val, hsp⟩ (congrArg Fin.val husp), ?_, rfl, hustack⟩
  show u.stack[s.sp.val] = s.pc
  simp only [hustack, Vector.getElem_set_self]

/-- Settles O39, by the two cases of the queue of drawn bytes. -/
theorem rndTakesADrawnByte : Obligations.RndTakesADrawnByte := by
  unfold Obligations.RndTakesADrawnByte
  intro s x kk hmode
  have he := exec_rnd_of_draw s x kk hmode
  refine ⟨fun b bs hq => ?_, fun hq => ?_⟩
  · have hpop : s.popDraw = s.withDraws bs := by rw [State.popDraw, hq]
    have hbyte : s.nextDraw = b := by rw [State.nextDraw, hq]
    rw [hpop, hbyte] at he
    exact ⟨_, he, State.v_setV_same _ x _, fun r => State.v_setV_of_ne _ _⟩
  · have hpop : s.popDraw = s.withFreeCount (s.freeCount + 1) := by rw [State.popDraw, hq]
    rw [hpop] at he
    exact ⟨_, s.nextDraw, he, State.v_setV_same _ x _, fun r => State.v_setV_of_ne _ _⟩

/-- Settles O44: FX65 reads at I what FX55 stored there (`ldMemVxStoresRegisters`, `ldVxMemLoadsRegisters`). -/
theorem storeThenLoadRoundTrips : Obligations.StoreThenLoadRoundTrips := by
  unfold Obligations.StoreThenLoadRoundTrips
  intro s t u x hm hlt ht hcfg hmem hireg
  obtain ⟨m, a, hstore, -, hread, -⟩ := (ldMemVxStoresRegisters.2 s x).2 hm hlt
  obtain rfl := Host.Outcome.next.inj (ht.symm.trans hstore)
  have hlt' : u.ireg.toNat + x.val < u.cfg.memSize := by rwa [hireg, hcfg]
  obtain ⟨v, b, hload, -, hv⟩ := (ldVxMemLoadsRegisters.2 u x).2 hlt'
  refine ⟨_, hload, fun k => ⟨fun hk => ?_, fun hk => (hv k).trans (if_neg (not_le.mpr hk))⟩⟩
  rw [← hread k hk]
  refine (hv k).trans ((if_pos hk).trans ?_)
  rw [State.readByte, hcfg, hmem, hireg]
  rfl

/-- Settles O45: the bytes at PC and PC + 1 are V0 and V1 (`ldMemVxStoresRegisters`). -/
theorem storesAreFetched : Obligations.StoresAreFetched := by
  unfold Obligations.StoresAreFetched
  intro s t x hm hx hpc hlt ht
  obtain ⟨m, a, hstore, -, hread, -⟩ := (ldMemVxStoresRegisters.2 s x).2 hm hlt
  obtain rfl := Host.Outcome.next.inj (ht.symm.trans hstore)
  have h0 := hread 0 (Fin.zero_le x)
  have h1 := hread 1 hx
  rw [hpc] at h0 h1 hlt
  refine ⟨(State.fetchInBounds_iff _).mpr ?_, ?_⟩
  · show s.pc.toNat + 1 < s.cfg.memSize
    omega
  · rw [← h0, ← h1]
    exact bytesWord_toNat _ _

end Sys2Proof.Proofs

/-! ## The writers of each piece of state (10_state.md R16 to R31) -/

namespace Sys2Proof.Machine

/-! ### What a write changes -/

theorem State.eq_of_getV_setV_ne {s : State} {x r : Reg} {b : Byte} (h : (s.setV x b).getV r ≠ s.getV r) :
    r = x :=
  Decidable.not_not.mp fun hr => h ((s.getV_setV x r b).trans (if_neg hr))

theorem State.eq_or_eq_of_getV_setV_setV_ne {s : State} {x x' r : Reg} {b b' : Byte}
    (h : ((s.setV x b).setV x' b').getV r ≠ s.getV r) : r = x ∨ r = x' := by
  by_cases h' : ((s.setV x b).setV x' b').getV r = (s.setV x b).getV r
  · exact .inl (State.eq_of_getV_setV_ne (h' ▸ h))
  · exact .inr (State.eq_of_getV_setV_ne h')

theorem State.exists_loadRegs_eq (s : State) (x : Reg) :
    ∃ u : Vector Byte 16, s.loadRegs x = s.withV u ∧ ∀ r : Reg, (s.withV u).getV r ≠ s.getV r → r ≤ x :=
  ⟨_, rfl, fun r h => Decidable.not_not.mp fun hr => h ((s.getV_loadRegs x r).trans (if_neg hr))⟩

/-- A shift is two register writes, the flag's and then VX's. -/
theorem State.exists_shiftBy_eq (s : State) (out : Byte → Bool) (move : Byte → Byte) (x y : Reg) :
    ∃ b b' : Byte, s.shiftBy out move x y = (s.setV VF b).setV x b' := by
  cases hq : s.cfg.quirkShiftVy with
  | true => exact ⟨_, _, s.shiftBy_of_quirk out move x y hq⟩
  | false => exact ⟨_, _, s.shiftBy_of_default out move x y hq⟩

theorem State.exists_advanceI_eq (s : State) (n : Nat) :
    ∃ a : Word, s.advanceI n = s.withI a ∧ (a ≠ s.ireg → s.cfg.quirkLsIncrement = true) :=
  ⟨_, s.advanceI_eq n, fun h => Decidable.not_not.mp fun hq => h (if_neg hq)⟩

/-! ### Where the table gives an instruction no fault (60_exceptions.md R120) -/

section

variable {s : State} {x y : Reg} {n : BitVec 4}

theorem drw_inBounds_of_faultOf (hc : faultOf (.drw x y n) s = .none) :
    ∀ k < n.toNat, s.ireg.toNat + k < s.cfg.memSize := by simpa [faultOf] using hc

theorem ldB_inBounds_of_faultOf (hc : faultOf (.ldB x) s = .none) : s.ireg.toNat + 2 < s.cfg.memSize := by
  simpa [faultOf] using hc

theorem ldMemVx_inBounds_of_faultOf (hc : faultOf (.ldMemVx x) s = .none) :
    s.ireg.toNat + x.val < s.cfg.memSize := by simpa [faultOf] using hc

theorem ldVxMem_inBounds_of_faultOf (hc : faultOf (.ldVxMem x) s = .none) :
    s.ireg.toNat + x.val < s.cfg.memSize := by simpa [faultOf] using hc

theorem skp_key_lt_of_faultOf (hc : faultOf (.skp x) s = .none) : (s.getV x).toNat < 16 := by
  simpa [faultOf, Nat.lt_succ_iff] using hc

theorem sknp_key_lt_of_faultOf (hc : faultOf (.sknp x) s = .none) : (s.getV x).toNat < 16 := by
  simpa [faultOf, Nat.lt_succ_iff] using hc

theorem call_sp_lt_of_faultOf {nnn : BitVec 12} (hc : faultOf (.call nnn) s = .none) : s.sp.val < 16 := by
  have hsp : s.sp.val ≠ 16 := by simpa [faultOf] using hc
  omega

/-- The slot that RET reads (R79). -/
theorem ret_exists_slot_of_faultOf (hc : faultOf .ret s = .none) : ∃ j : Fin 16, s.sp.val = j.val + 1 := by
  have hsp : s.sp.val ≠ 0 := by simpa [faultOf] using hc
  have hj : s.sp.val = (s.sp.val - 1) + 1 := by omega
  exact ⟨⟨s.sp.val - 1, by omega⟩, hj⟩

end

/-! ### The writers -/

/-- From `s` to `t` each piece of state differs only where the spec names `i` as a writer, or where `i` faults
(10_state.md R16, R18 to R28, R31, R40). A piece that an operation does not touch needs no argument. -/
structure OnlyNamedWriters (i : Instr) (s t : State) : Prop where
  cfg : t.cfg = s.cfg := by exact rfl
  keys : t.keys = s.keys := by exact rfl
  ticks : t.ticks = s.ticks := by exact rfl
  regs : ∀ r : Reg, t.getV r ≠ s.getV r → mayWriteReg i r := by exact fun _ h => absurd rfl h
  pc : t.pc ≠ s.pc → faultOf i s ≠ .none ∨ (∃ nnn, i = .jp nnn ∨ i = .jpV0 nnn ∨ i = .call nnn) ∨ i = .ret ∨
      (∃ x kk, i = .seImm x kk ∨ i = .sneImm x kk) ∨ (∃ x y, i = .seReg x y ∨ i = .sneReg x y) ∨
      ∃ x, i = .skp x ∨ i = .sknp x ∨ i = .ldVxK x := by exact fun h => absurd rfl h
  ireg : t.ireg ≠ s.ireg → (∃ nnn, i = .ldI nnn) ∨ (∃ x, i = .addI x) ∨ (∃ x, i = .ldF x) ∨
      (s.cfg.quirkLsIncrement = true ∧ ∃ x, i = .ldMemVx x ∨ i = .ldVxMem x) := by exact fun h => absurd rfl h
  callStack : (t.sp ≠ s.sp ∨ t.stack ≠ s.stack) → i = .ret ∨ ∃ nnn, i = .call nnn := by
    rintro (h | h) <;> exact absurd rfl h
  retStack : i = .ret → t.stack = s.stack := by exact fun _ => rfl
  dt : t.dt ≠ s.dt → ∃ x, i = .ldDt x := by exact fun h => absurd rfl h
  st : t.st ≠ s.st → ∃ x, i = .ldSt x := by exact fun h => absurd rfl h
  disp : t.disp ≠ s.disp → i = .cls ∨ ∃ x y n, i = .drw x y n := by exact fun h => absurd rfl h
  mem : t.mem ≠ s.mem → ∃ x, i = .ldB x ∨ i = .ldMemVx x := by exact fun h => absurd rfl h
  rng : t.rng ≠ s.rng → ∃ x kk, i = .rnd x kk := by exact fun h => absurd rfl h
  draws : (t.draws ≠ s.draws ∨ t.freeCount ≠ s.freeCount) → s.cfg.rngMode = .draw ∧ ∃ x kk, i = .rnd x kk := by
    rintro (h | h) <;> exact absurd rfl h
  fault : (t.fault ≠ s.fault ∨ t.faultPc ≠ s.faultPc ∨ t.faultWord ≠ s.faultWord ∨ t.out ≠ s.out) →
      faultOf i s ≠ .none := by
    rintro (h | h | h | h) <;> exact absurd rfl h

/-- Fault entry writes PC, the fault registers and the outputs alone. -/
theorem onlyNamedWriters_raiseFault {i : Instr} {s : State} (h : faultOf i s ≠ .none) (c : FaultCause) :
    OnlyNamedWriters i s (s.raiseFault c i) :=
  { pc := fun _ => .inl h, fault := fun _ => h }

theorem onlyNamedWriters_rnd (s : State) (x : Reg) (kk : Byte) :
    ∃ t, exec (.rnd x kk) s = .next t ∧ OnlyNamedWriters (.rnd x kk) s t := by
  cases hmode : s.cfg.rngMode with
  | xorshift32 =>
    exact ⟨_, exec_rnd_of_xorshift32 s x kk hmode,
      { regs := fun _ h => State.eq_of_getV_setV_ne h, rng := fun _ => ⟨x, kk, rfl⟩ }⟩
  | draw =>
    refine ⟨_, exec_rnd_of_draw s x kk hmode, ?_⟩
    rw [State.popDraw_eq]
    exact { regs := fun _ h => State.eq_of_getV_setV_ne h, draws := fun _ => ⟨hmode, x, kk, rfl⟩ }

/-- An instruction that completes writes only what the spec names it for. -/
theorem onlyNamedWriters_of_faultOf_eq_none (i : Instr) (s : State) (hc : faultOf i s = .none) :
    ∃ t, exec i s = .next t ∧ OnlyNamedWriters i s t := by
  cases i with
  | nop => exact ⟨_, rfl, {}⟩
  | cls => exact ⟨_, rfl, { disp := by simp }⟩
  | jp | jpV0 => exact ⟨_, rfl, { pc := by simp }⟩
  | seImm | sneImm | seReg | sneReg =>
    refine ⟨_, rfl, ?_⟩
    rw [State.skipIf_eq]
    exact { pc := by simp }
  | skp x => exact ⟨_, exec_skp_of_key s x ⟨_, skp_key_lt_of_faultOf hc⟩ rfl, { pc := by simp }⟩
  | sknp x => exact ⟨_, exec_sknp_of_key s x ⟨_, sknp_key_lt_of_faultOf hc⟩ rfl, { pc := by simp }⟩
  | ret =>
    obtain ⟨j, hj⟩ := ret_exists_slot_of_faultOf hc
    exact ⟨_, exec_ret_of_sp_eq_succ s j hj, { pc := by simp, callStack := by simp }⟩
  | call nnn =>
    exact ⟨_, exec_call_of_lt s nnn (call_sp_lt_of_faultOf hc),
      { pc := by simp, callStack := by simp, retStack := by simp }⟩
  | ldImm | ldReg | addImm | orReg | andReg | xorReg | ldVxDt =>
    exact ⟨_, rfl, { regs := fun _ h => State.eq_of_getV_setV_ne h }⟩
  | addReg | sub | subn => exact ⟨_, rfl, { regs := fun _ h => State.eq_or_eq_of_getV_setV_setV_ne h }⟩
  | shr x y | shl x y =>
    refine ⟨_, rfl, ?_⟩
    obtain ⟨b, b', he⟩ := s.exists_shiftBy_eq _ _ x y
    rw [he]
    exact { regs := fun _ h => (State.eq_or_eq_of_getV_setV_setV_ne h).symm }
  | rnd x kk => exact onlyNamedWriters_rnd s x kk
  | ldI | addI | ldF => exact ⟨_, rfl, { ireg := by simp }⟩
  | drw x y n =>
    exact ⟨_, exec_drw_of_inBounds s x y n (drw_inBounds_of_faultOf hc),
      { regs := fun _ h => State.eq_of_getV_setV_ne h, disp := by simp }⟩
  | ldVxK x =>
    cases hk : s.lowestKey? with
    | some k => exact ⟨_, exec_ldVxK_of_lowest s x k hk, { regs := fun _ h => State.eq_of_getV_setV_ne h }⟩
    | none => exact ⟨_, exec_ldVxK_of_none s x (s.lowestKey?_eq_none.mp hk), { pc := by simp }⟩
  | ldDt => exact ⟨_, rfl, { dt := by simp }⟩
  | ldSt => exact ⟨_, rfl, { st := by simp }⟩
  | ldB x =>
    refine ⟨_, exec_ldB_of_lt s x (ldB_inBounds_of_faultOf hc), ?_⟩
    rw [State.writeBytes_eq]
    exact { mem := by simp }
  | ldMemVx x =>
    refine ⟨_, exec_ldMemVx_of_lt s x (ldMemVx_inBounds_of_faultOf hc), ?_⟩
    rw [State.writeBytes_eq]
    obtain ⟨a, he, hq⟩ := State.exists_advanceI_eq (s.withMem _) (x.val + 1)
    rw [he]
    exact { mem := by simp, ireg := fun h => .inr (.inr (.inr ⟨hq h, by simp⟩)) }
  | ldVxMem x =>
    refine ⟨_, exec_ldVxMem_of_lt s x (ldVxMem_inBounds_of_faultOf hc), ?_⟩
    obtain ⟨u, hu, hle⟩ := s.exists_loadRegs_eq x
    obtain ⟨a, he, hq⟩ := (s.withV u).exists_advanceI_eq (x.val + 1)
    rw [hu, he]
    exact { regs := hle, ireg := fun h => .inr (.inr (.inr ⟨hq h, by simp⟩)) }

theorem exec_onlyNamedWriters (i : Instr) (s : State) : ∃ t, exec i s = .next t ∧ OnlyNamedWriters i s t := by
  by_cases hc : faultOf i s = .none
  · exact onlyNamedWriters_of_faultOf_eq_none i s hc
  · exact ⟨_, takesFault_of_faultOf_eq rfl hc, onlyNamedWriters_raiseFault hc _⟩

end Sys2Proof.Machine

namespace Sys2Proof.Proofs

open Sys2Proof.Machine

/-- Settles O49: the clauses of `OnlyNamedWriters`, one by one. -/
theorem stateHasOnlyItsNamedWriters : Obligations.StateHasOnlyItsNamedWriters := by
  unfold Obligations.StateHasOnlyItsNamedWriters
  intro i s
  obtain ⟨t, he, h⟩ := exec_onlyNamedWriters i s
  exact ⟨t, he, h.cfg, h.keys, h.ticks, h.regs, h.pc, h.ireg, h.callStack, h.retStack, h.dt, h.st, h.disp, h.mem,
    h.rng, h.draws, h.fault⟩

end Sys2Proof.Proofs

/-! ## Dead stack slots (10_state.md R22) -/

namespace Sys2Proof.Machine

open Sys2Proof.Claims

variable (s : State) (k : Vector Word 16)

/-! ### The operations read no stack slot -/

theorem State.shiftBy_withStack (out : Byte → Bool) (move : Byte → Byte) (x y : Reg) :
    (s.withStack k).shiftBy out move x y = (s.shiftBy out move x y).withStack k := by
  cases hq : s.cfg.quirkShiftVy with
  | true => rw [s.shiftBy_of_quirk out move x y hq, State.shiftBy_of_quirk (s.withStack k) out move x y hq]; rfl
  | false => rw [s.shiftBy_of_default out move x y hq, State.shiftBy_of_default (s.withStack k) out move x y hq]; rfl

theorem State.skipIf_withStack (c : Bool) : (s.withStack k).skipIf c = (s.skipIf c).withStack k := by
  cases c <;> rfl

theorem State.advanceI_withStack (n : Nat) : (s.withStack k).advanceI n = (s.advanceI n).withStack k := by
  rw [State.advanceI_eq, State.advanceI_eq]
  rfl

theorem State.writeBytes_withStack (a : Nat) (bs : List Byte) :
    (s.withStack k).writeBytes a bs = (s.writeBytes a bs).withStack k := by
  induction bs generalizing s a with
  | nil => rfl
  | cons b bs ih => exact ih (s.writeByte a b) (a + 1)

theorem State.popDraw_withStack : (s.withStack k).popDraw = s.popDraw.withStack k := by
  simp only [State.popDraw_eq]
  rfl

theorem State.popTick_withStack : (s.withStack k).popTick = s.popTick.withStack k := by
  simp only [State.popTick_eq]
  rfl

theorem State.complete_withStack (tick : Bool) : (s.withStack k).complete tick = (s.complete tick).withStack k := by
  by_cases hf : s.fault = .none
  · rw [s.complete_of_none tick hf, State.complete_of_none (s.withStack k) tick hf]
    rfl
  · rw [s.complete_of_fault tick hf, State.complete_of_fault (s.withStack k) tick hf]

theorem faultOf_withStack (i : Instr) : faultOf i (s.withStack k) = faultOf i s := by cases i <;> rfl

/-! ### Instructions -/

theorem exec_rnd_withStack (x : Reg) (kk : Byte) :
    ∃ t, exec (.rnd x kk) s = .next t ∧ exec (.rnd x kk) (s.withStack k) = .next (t.withStack k) := by
  cases hmode : s.cfg.rngMode with
  | xorshift32 => exact ⟨_, exec_rnd_of_xorshift32 s x kk hmode, exec_rnd_of_xorshift32 (s.withStack k) x kk hmode⟩
  | draw =>
    refine ⟨_, exec_rnd_of_draw s x kk hmode, ?_⟩
    rw [exec_rnd_of_draw (s.withStack k) x kk hmode, State.popDraw_withStack]
    rfl

/-- Every instruction but CALL and RET runs alike on any two sets of stack slots. -/
theorem exec_withStack (i : Instr) (hret : i ≠ .ret) (hcall : ∀ nnn, i ≠ .call nnn) (hc : faultOf i s = .none) :
    ∃ t, exec i s = .next t ∧ exec i (s.withStack k) = .next (t.withStack k) := by
  cases i with
  | ret => exact absurd rfl hret
  | call nnn => exact absurd rfl (hcall nnn)
  | nop | cls | jp | ldImm | addImm | ldReg | orReg | andReg | xorReg | addReg | sub | subn | ldI | jpV0 | ldVxDt
  | ldDt | ldSt | addI | ldF => exact ⟨_, rfl, rfl⟩
  | seImm | sneImm | seReg | sneReg => exact ⟨_, rfl, congrArg _ (s.skipIf_withStack k _)⟩
  | shr x y | shl x y => exact ⟨_, rfl, congrArg _ (s.shiftBy_withStack k _ _ x y)⟩
  | rnd x kk => exact exec_rnd_withStack s k x kk
  | drw x y n =>
    have hin := drw_inBounds_of_faultOf hc
    exact ⟨_, exec_drw_of_inBounds s x y n hin, exec_drw_of_inBounds (s.withStack k) x y n hin⟩
  | ldB x =>
    have hlt := ldB_inBounds_of_faultOf hc
    refine ⟨_, exec_ldB_of_lt s x hlt, ?_⟩
    rw [exec_ldB_of_lt (s.withStack k) x hlt, State.writeBytes_withStack]
    rfl
  | ldMemVx x =>
    have hlt := ldMemVx_inBounds_of_faultOf hc
    refine ⟨_, exec_ldMemVx_of_lt s x hlt, ?_⟩
    rw [exec_ldMemVx_of_lt (s.withStack k) x hlt, State.writeBytes_withStack, State.advanceI_withStack]
    rfl
  | ldVxMem x =>
    have hlt := ldVxMem_inBounds_of_faultOf hc
    refine ⟨_, exec_ldVxMem_of_lt s x hlt, ?_⟩
    rw [← State.advanceI_withStack]
    exact exec_ldVxMem_of_lt (s.withStack k) x hlt
  | skp x =>
    have hk := skp_key_lt_of_faultOf hc
    exact ⟨_, exec_skp_of_key s x ⟨_, hk⟩ rfl, exec_skp_of_key (s.withStack k) x ⟨_, hk⟩ rfl⟩
  | sknp x =>
    have hk := sknp_key_lt_of_faultOf hc
    exact ⟨_, exec_sknp_of_key s x ⟨_, hk⟩ rfl, exec_sknp_of_key (s.withStack k) x ⟨_, hk⟩ rfl⟩
  | ldVxK x =>
    cases hk : s.lowestKey? with
    | some j => exact ⟨_, exec_ldVxK_of_lowest s x j hk, exec_ldVxK_of_lowest (s.withStack k) x j hk⟩
    | none =>
      have hup := s.lowestKey?_eq_none.mp hk
      exact ⟨_, exec_ldVxK_of_none s x hup, exec_ldVxK_of_none (s.withStack k) x hup⟩

/-! ### The relation -/

/-- `k` holds what the stack of `s` holds in the live slots, those below SP. -/
def State.AgreesBelowSp (s : State) (k : Vector Word 16) : Prop :=
  ∀ (j : Nat) (h : j < 16), j < s.sp.val → k[j] = s.stack[j]

variable {s k}

theorem sameUpToDeadSlots_iff {s' : State} :
    SameUpToDeadSlots s s' ↔ ∃ k, s' = s.withStack k ∧ s.AgreesBelowSp k := by
  constructor
  · rintro ⟨he, hk⟩
    exact ⟨s'.stack, he, hk⟩
  · rintro ⟨k, rfl, hk⟩
    exact ⟨rfl, hk⟩

/-- RET reads a live slot. -/
theorem exec_ret_sameUpToDeadSlots (hk : s.AgreesBelowSp k) (hc : faultOf .ret s = .none) :
    ∃ t t', exec .ret s = .next t ∧ exec .ret (s.withStack k) = .next t' ∧ SameUpToDeadSlots t t' := by
  obtain ⟨j, hj⟩ := ret_exists_slot_of_faultOf hc
  have hslot : k[j] = s.stack[j] := hk j.val j.isLt (by omega)
  refine ⟨_, _, exec_ret_of_sp_eq_succ s j hj, exec_ret_of_sp_eq_succ (s.withStack k) j hj,
    sameUpToDeadSlots_iff.mpr ⟨k, ?_, fun m hm hlt => hk m hm ?_⟩⟩
  · show ({ s.withStack k with sp := j.castSucc, pc := k[j] } : State) = _
    rw [hslot]
    rfl
  · have hm' : m < j.val := hlt
    omega

/-- CALL writes the slot at SP, which is live afterwards, with the same address. -/
theorem exec_call_sameUpToDeadSlots (nnn : BitVec 12) (hk : s.AgreesBelowSp k) (hc : faultOf (.call nnn) s = .none) :
    ∃ t t', exec (.call nnn) s = .next t ∧ exec (.call nnn) (s.withStack k) = .next t' ∧ SameUpToDeadSlots t t' := by
  have hsp := call_sp_lt_of_faultOf hc
  refine ⟨_, _, exec_call_of_lt s nnn hsp, exec_call_of_lt (s.withStack k) nnn hsp,
    sameUpToDeadSlots_iff.mpr ⟨k.set s.sp.val s.pc hsp, rfl, fun m hm hlt => ?_⟩⟩
  have hm' : m < s.sp.val + 1 := hlt
  show (k.set s.sp.val s.pc hsp)[m] = (s.stack.set s.sp.val s.pc hsp)[m]
  rw [Vector.getElem_set, Vector.getElem_set]
  split
  · rfl
  · exact hk m hm (by omega)

theorem exec_sameUpToDeadSlots (i : Instr) (hk : s.AgreesBelowSp k) :
    ∃ t t', exec i s = .next t ∧ exec i (s.withStack k) = .next t' ∧ SameUpToDeadSlots t t' := by
  by_cases hc : faultOf i s = .none
  · by_cases hi : i = .ret ∨ ∃ nnn, i = .call nnn
    · obtain rfl | ⟨nnn, rfl⟩ := hi
      · exact exec_ret_sameUpToDeadSlots hk hc
      · exact exec_call_sameUpToDeadSlots nnn hk hc
    · obtain ⟨t, ht, hw⟩ := exec_onlyNamedWriters i s
      obtain ⟨u, hu, hu'⟩ := exec_withStack s k i (fun h => hi (.inl h)) (fun nnn h => hi (.inr ⟨nnn, h⟩)) hc
      obtain rfl := Host.Outcome.next.inj (ht.symm.trans hu)
      have hsp : t.sp = s.sp := Decidable.not_not.mp fun h => hi (hw.callStack (.inl h))
      have hstack : t.stack = s.stack := Decidable.not_not.mp fun h => hi (hw.callStack (.inr h))
      refine ⟨t, _, ht, hu', sameUpToDeadSlots_iff.mpr ⟨k, rfl, fun j hj hlt => ?_⟩⟩
      rw [hsp] at hlt
      simpa only [hstack] using hk j hj hlt
  · exact ⟨_, _, takesFault_of_faultOf_eq rfl hc, takesFault_of_faultOf_eq (faultOf_withStack s k i) hc,
      sameUpToDeadSlots_iff.mpr ⟨k, rfl, hk⟩⟩

theorem sameUpToDeadSlots_complete {s' : State} (tick : Bool) (h : SameUpToDeadSlots s s') :
    SameUpToDeadSlots (s.complete tick) (s'.complete tick) := by
  obtain ⟨k, rfl, hk⟩ := sameUpToDeadSlots_iff.mp h
  refine sameUpToDeadSlots_iff.mpr ⟨k, s.complete_withStack k tick, ?_⟩
  unfold State.complete
  split <;> exact hk

theorem stepTick_sameUpToDeadSlots (tick : Bool) (hk : s.AgreesBelowSp k) :
    ∃ t t', stepTick tick s = .next t ∧ stepTick tick (s.withStack k) = .next t' ∧ SameUpToDeadSlots t t' := by
  by_cases hf : s.fault = .none
  · cases hb : s.fetchInBounds with
    | false =>
      exact ⟨_, _, stepTick_of_halt tick s hf hb, stepTick_of_halt tick (s.withStack k) hf hb,
        sameUpToDeadSlots_iff.mpr ⟨k, rfl, hk⟩⟩
    | true =>
      cases hd : decodeWord s.fetchWord with
      | error r =>
        exact ⟨_, _, stepTick_of_error tick s r hf hb hd, stepTick_of_error tick (s.withStack k) r hf hb hd,
          sameUpToDeadSlots_iff.mpr ⟨k, rfl, hk⟩⟩
      | ok i =>
        obtain ⟨t, t', ht, ht', h⟩ := exec_sameUpToDeadSlots (s := s.begin) i hk
        refine ⟨t.complete tick, t'.complete tick, ?_, ?_, sameUpToDeadSlots_complete tick h⟩
        · rw [stepTick_of_ok tick s i hf hb hd, ht, completeResult]
        · rw [stepTick_of_ok tick (s.withStack k) i hf hb hd]
          exact congrArg (completeResult tick) ht'
  · exact ⟨_, _, stepTick_of_fault tick s hf, stepTick_of_fault tick (s.withStack k) hf,
      sameUpToDeadSlots_iff.mpr ⟨k, rfl, hk⟩⟩

end Sys2Proof.Machine

namespace Sys2Proof.Proofs

open Sys2Proof.Machine

/-- Settles O50: taking TICK and the step's four cases read no dead slot; of the instructions only RET reads a slot,
a live one, and only CALL makes one live, which it writes. -/
theorem deadStackSlotsAreUnobservable : Obligations.DeadStackSlotsAreUnobservable := by
  unfold Obligations.DeadStackSlotsAreUnobservable
  intro s s' h
  obtain ⟨k, rfl, hk⟩ := sameUpToDeadSlots_iff.mp h
  have hpop : s.popTick.AgreesBelowSp k := by rw [State.popTick_eq]; exact hk
  rw [show step (s.withStack k) = stepTick s.nextTick (s.popTick.withStack k) from
    congrArg (stepTick s.nextTick) (s.popTick_withStack k)]
  exact stepTick_sameUpToDeadSlots s.nextTick hpop

end Sys2Proof.Proofs
